-- ==== Sys2Proof/Word.lean ====
section
/-! DEFINITION. The widths of the machine's values (00_scope.md R8, R10). -/

namespace Sys2Proof

/-- An 8-bit value: V0-VF, DT, ST, a memory byte, the immediate kk. -/
abbrev Byte := BitVec 8

/-- A 16-bit value: I, PC, a stack entry, an opcode word. -/
abbrev Word := BitVec 16

/-- The 12-bit address field nnn (30_encoding.md R81). -/
abbrev Addr12 := BitVec 12

/-- A register index x or y: always one of V0-VF (30_encoding.md R82). -/
abbrev RegIdx := Fin 16

/-- VF, the register that also holds flags (10_state.md R21). -/
abbrev VF : RegIdx := 15

end Sys2Proof
end

