-- ==== Sys2Proof/Machine/Flags.lean ====
section
/-! DEFINITION. The values written to VF as a flag (10_state.md R21). DRW's collision flag is
computed pixel by pixel in Machine/Draw.lean. -/

namespace Sys2Proof.Machine

/-- 1 for true, 0 for false. -/
def flagByte (b : Bool) : Byte := if b then 1 else 0

/-- ADD Vx,Vy: the unsigned sum exceeds 255 (42_alu.md R134). -/
def carryFlag (vx vy : Byte) : Byte := flagByte (decide (vx.toNat + vy.toNat > 255))

/-- SUB and SUBN: minuend > subtrahend, strictly (42_alu.md R135, R137, 90_conflicts.md C2). -/
def notBorrowFlag (minuend subtrahend : Byte) : Byte :=
  flagByte (decide (subtrahend.toNat < minuend.toNat))

/-- SHR: the old bit 0 (42_alu.md R136). -/
def shiftedOutLow (vx : Byte) : Byte := flagByte (vx.getLsbD 0)

/-- SHL: the old bit 7 (42_alu.md R138). -/
def shiftedOutHigh (vx : Byte) : Byte := flagByte (vx.getLsbD 7)

/-- ADD I,Vx: the resulting index exceeds 255 (43_index.md R152). -/
def indexFlag (newI : Word) : Byte := flagByte (decide (newI.toNat > 255))

end Sys2Proof.Machine
end

