-- ==== Sys2Proof/Syntax.lean ====
section
/-! DEFINITION. The 34 instructions (30_encoding.md R90), one constructor per row, with the fields
the row's format supplies (R84). -/

namespace Sys2Proof

/-- One instruction of the opcode table (R90). SHR and SHL keep the y field, which is decoded and
not used (R84). The row count n of DRW is a number, bounded by `Instr.wellFormed` (log entry 11). -/
inductive Instr where
  /-- 00E0 -/
  | cls
  /-- 00EE -/
  | ret
  /-- 1nnn -/
  | jp (nnn : Addr12)
  /-- 2nnn -/
  | call (nnn : Addr12)
  /-- 3xkk -/
  | seImm (x : RegIdx) (kk : Byte)
  /-- 4xkk -/
  | sneImm (x : RegIdx) (kk : Byte)
  /-- 5xy0 -/
  | seReg (x y : RegIdx)
  /-- 6xkk -/
  | ldImm (x : RegIdx) (kk : Byte)
  /-- 7xkk -/
  | addImm (x : RegIdx) (kk : Byte)
  /-- 8xy0 -/
  | ldReg (x y : RegIdx)
  /-- 8xy1 -/
  | orReg (x y : RegIdx)
  /-- 8xy2 -/
  | andReg (x y : RegIdx)
  /-- 8xy3 -/
  | xorReg (x y : RegIdx)
  /-- 8xy4 -/
  | addReg (x y : RegIdx)
  /-- 8xy5 -/
  | sub (x y : RegIdx)
  /-- 8xy6 -/
  | shr (x y : RegIdx)
  /-- 8xy7 -/
  | subn (x y : RegIdx)
  /-- 8xyE -/
  | shl (x y : RegIdx)
  /-- 9xy0 -/
  | sneReg (x y : RegIdx)
  /-- Annn -/
  | ldI (nnn : Addr12)
  /-- Bnnn -/
  | jpV0 (nnn : Addr12)
  /-- Cxkk -/
  | rnd (x : RegIdx) (kk : Byte)
  /-- Dxyn -/
  | drw (x y : RegIdx) (n : Nat)
  /-- Ex9E -/
  | skp (x : RegIdx)
  /-- ExA1 -/
  | sknp (x : RegIdx)
  /-- Fx07 -/
  | ldVxDt (x : RegIdx)
  /-- Fx0A -/
  | ldVxK (x : RegIdx)
  /-- Fx15 -/
  | ldDtVx (x : RegIdx)
  /-- Fx18 -/
  | ldStVx (x : RegIdx)
  /-- Fx1E -/
  | addI (x : RegIdx)
  /-- Fx29 -/
  | ldF (x : RegIdx)
  /-- Fx33 -/
  | ldB (x : RegIdx)
  /-- Fx55 -/
  | storeRegs (x : RegIdx)
  /-- Fx65 -/
  | loadRegs (x : RegIdx)
  deriving DecidableEq, Repr

end Sys2Proof
end

