-- ==== Sys2Proof/Decode.lean ====
section
/-! DEFINITION. The decoder (30_encoding.md R80 to R93), total on any bytes and rejecting by name,
and after it the encoder, written from the patterns of R84 and R90. -/

namespace Sys2Proof

/-! ### Fields of an opcode word (R81) -/

/-- x = op[11:8] -/
def fieldX (op : Word) : RegIdx := (op.extractLsb' 8 4).toFin
/-- y = op[7:4] -/
def fieldY (op : Word) : RegIdx := (op.extractLsb' 4 4).toFin
/-- n = op[3:0], zero-extended (R83) -/
def fieldN (op : Word) : Nat := (op.extractLsb' 0 4).toNat
/-- kk = op[7:0] -/
def fieldKk (op : Word) : Byte := op.extractLsb' 0 8
/-- nnn = op[11:0] -/
def fieldNnn (op : Word) : Addr12 := op.extractLsb' 0 12

/-! ### The opcode table (R90) -/

/-- One row of the table: the word is the row's instruction when `op AND mask = pattern`. -/
structure OpcodeRow where
  mask    : Word
  pattern : Word
  build   : Word → Instr

/-- The word is one of the row's (R91). -/
def OpcodeRow.matchesWord (r : OpcodeRow) (op : Word) : Bool := op &&& r.mask == r.pattern

/-- Rows 1 to 9 of R90: families 0 to 7. -/
def opcodeRowsLow : List OpcodeRow :=
  [ ⟨0xFFFF, 0x00E0, fun _ => .cls⟩,
    ⟨0xFFFF, 0x00EE, fun _ => .ret⟩,
    ⟨0xF000, 0x1000, fun op => .jp (fieldNnn op)⟩,
    ⟨0xF000, 0x2000, fun op => .call (fieldNnn op)⟩,
    ⟨0xF000, 0x3000, fun op => .seImm (fieldX op) (fieldKk op)⟩,
    ⟨0xF000, 0x4000, fun op => .sneImm (fieldX op) (fieldKk op)⟩,
    ⟨0xF00F, 0x5000, fun op => .seReg (fieldX op) (fieldY op)⟩,
    ⟨0xF000, 0x6000, fun op => .ldImm (fieldX op) (fieldKk op)⟩,
    ⟨0xF000, 0x7000, fun op => .addImm (fieldX op) (fieldKk op)⟩ ]

/-- Rows 10 to 18 of R90: the register-register ALU (R87). -/
def opcodeRowsAlu : List OpcodeRow :=
  [ ⟨0xF00F, 0x8000, fun op => .ldReg (fieldX op) (fieldY op)⟩,
    ⟨0xF00F, 0x8001, fun op => .orReg (fieldX op) (fieldY op)⟩,
    ⟨0xF00F, 0x8002, fun op => .andReg (fieldX op) (fieldY op)⟩,
    ⟨0xF00F, 0x8003, fun op => .xorReg (fieldX op) (fieldY op)⟩,
    ⟨0xF00F, 0x8004, fun op => .addReg (fieldX op) (fieldY op)⟩,
    ⟨0xF00F, 0x8005, fun op => .sub (fieldX op) (fieldY op)⟩,
    ⟨0xF00F, 0x8006, fun op => .shr (fieldX op) (fieldY op)⟩,
    ⟨0xF00F, 0x8007, fun op => .subn (fieldX op) (fieldY op)⟩,
    ⟨0xF00F, 0x800E, fun op => .shl (fieldX op) (fieldY op)⟩ ]

/-- Rows 19 to 25 of R90: families 9 to E. -/
def opcodeRowsHigh : List OpcodeRow :=
  [ ⟨0xF00F, 0x9000, fun op => .sneReg (fieldX op) (fieldY op)⟩,
    ⟨0xF000, 0xA000, fun op => .ldI (fieldNnn op)⟩,
    ⟨0xF000, 0xB000, fun op => .jpV0 (fieldNnn op)⟩,
    ⟨0xF000, 0xC000, fun op => .rnd (fieldX op) (fieldKk op)⟩,
    ⟨0xF000, 0xD000, fun op => .drw (fieldX op) (fieldY op) (fieldN op)⟩,
    ⟨0xF0FF, 0xE09E, fun op => .skp (fieldX op)⟩,
    ⟨0xF0FF, 0xE0A1, fun op => .sknp (fieldX op)⟩ ]

/-- Rows 26 to 34 of R90: family F (R89). -/
def opcodeRowsF : List OpcodeRow :=
  [ ⟨0xF0FF, 0xF007, fun op => .ldVxDt (fieldX op)⟩,
    ⟨0xF0FF, 0xF00A, fun op => .ldVxK (fieldX op)⟩,
    ⟨0xF0FF, 0xF015, fun op => .ldDtVx (fieldX op)⟩,
    ⟨0xF0FF, 0xF018, fun op => .ldStVx (fieldX op)⟩,
    ⟨0xF0FF, 0xF01E, fun op => .addI (fieldX op)⟩,
    ⟨0xF0FF, 0xF029, fun op => .ldF (fieldX op)⟩,
    ⟨0xF0FF, 0xF033, fun op => .ldB (fieldX op)⟩,
    ⟨0xF0FF, 0xF055, fun op => .storeRegs (fieldX op)⟩,
    ⟨0xF0FF, 0xF065, fun op => .loadRegs (fieldX op)⟩ ]

/-- The complete opcode table (R90). -/
def opcodeRows : List OpcodeRow :=
  opcodeRowsLow ++ opcodeRowsAlu ++ opcodeRowsHigh ++ opcodeRowsF

/-! ### Decoding -/

/-- Decode of a word (R91): the row that matches, or none (an unknown opcode, R92). -/
def decodeWord (op : Word) : Option Instr :=
  (opcodeRows.find? (·.matchesWord op)).map (·.build op)

/-- What the decoder answers on bytes. -/
inductive DecodeResult where
  /-- An instruction, and the bytes after its two. -/
  | decoded (i : Instr) (rest : List Byte)
  /-- The word matches no row (R92). -/
  | unknownOpcode (op : Word)
  /-- Fewer than the two bytes every instruction has (R80). -/
  | tooShort
  deriving DecidableEq, Repr

/-- The big-endian word of two bytes, the one at the lower address first (20_memory.md R53). -/
def wordOfBytes (hi lo : Byte) : Word := hi ++ lo

/-- Decode of the bytes at a fetch address: every instruction is one big-endian word (R80). -/
def decode : List Byte → DecodeResult
  | hi :: lo :: rest =>
    match decodeWord (wordOfBytes hi lo) with
    | some i => .decoded i rest
    | none   => .unknownOpcode (wordOfBytes hi lo)
  | [_] => .tooShort
  | []  => .tooShort

/-! ### Encoding -/

/-- A register index as a 4-bit field. -/
def nibble (x : RegIdx) : BitVec 4 := BitVec.ofNat 4 x.val

/-- REG_IMM: `cccc xxxx kkkk kkkk` (R84). -/
def wordRegImm (c : BitVec 4) (x : RegIdx) (kk : Byte) : Word := c ++ nibble x ++ kk
/-- REG_REG: `cccc xxxx yyyy ffff`, and DRAW with n in the place of ffff (R84). -/
def wordRegReg (c : BitVec 4) (x y : RegIdx) (f : BitVec 4) : Word := c ++ nibble x ++ nibble y ++ f
/-- ADDR: `cccc nnnn nnnn nnnn` (R84). -/
def wordAddr (c : BitVec 4) (nnn : Addr12) : Word := c ++ nnn

/-- The word of an instruction: the pattern column of R90. -/
def encode : Instr → Word
  | .cls => 0x00E0
  | .ret => 0x00EE
  | .jp nnn => wordAddr 0x1 nnn
  | .call nnn => wordAddr 0x2 nnn
  | .seImm x kk => wordRegImm 0x3 x kk
  | .sneImm x kk => wordRegImm 0x4 x kk
  | .seReg x y => wordRegReg 0x5 x y 0x0
  | .ldImm x kk => wordRegImm 0x6 x kk
  | .addImm x kk => wordRegImm 0x7 x kk
  | .ldReg x y => wordRegReg 0x8 x y 0x0
  | .orReg x y => wordRegReg 0x8 x y 0x1
  | .andReg x y => wordRegReg 0x8 x y 0x2
  | .xorReg x y => wordRegReg 0x8 x y 0x3
  | .addReg x y => wordRegReg 0x8 x y 0x4
  | .sub x y => wordRegReg 0x8 x y 0x5
  | .shr x y => wordRegReg 0x8 x y 0x6
  | .subn x y => wordRegReg 0x8 x y 0x7
  | .shl x y => wordRegReg 0x8 x y 0xE
  | .sneReg x y => wordRegReg 0x9 x y 0x0
  | .ldI nnn => wordAddr 0xA nnn
  | .jpV0 nnn => wordAddr 0xB nnn
  | .rnd x kk => wordRegImm 0xC x kk
  | .drw x y n => wordRegReg 0xD x y (BitVec.ofNat 4 n)
  | .skp x => wordRegImm 0xE x 0x9E
  | .sknp x => wordRegImm 0xE x 0xA1
  | .ldVxDt x => wordRegImm 0xF x 0x07
  | .ldVxK x => wordRegImm 0xF x 0x0A
  | .ldDtVx x => wordRegImm 0xF x 0x15
  | .ldStVx x => wordRegImm 0xF x 0x18
  | .addI x => wordRegImm 0xF x 0x1E
  | .ldF x => wordRegImm 0xF x 0x29
  | .ldB x => wordRegImm 0xF x 0x33
  | .storeRegs x => wordRegImm 0xF x 0x55
  | .loadRegs x => wordRegImm 0xF x 0x65

/-- The two bytes of a word as memory holds them, big-endian (20_memory.md R53). -/
def bytesOfWord (w : Word) : List Byte := [w.extractLsb' 8 8, w.extractLsb' 0 8]

/-- The bytes of an instruction, lowest address first. -/
def encodeBytes (i : Instr) : List Byte := bytesOfWord (encode i)

/-- The instruction word the opcode table's numbering gives: bit 0 is the least significant bit of
the one word, and every bit above `nbits` is 0. -/
def tableWord (nbits w : Nat) : Word := BitVec.ofNat 16 (w % 2 ^ nbits)

/-- What the decoder reads from an instruction whose bits, as the opcode table numbers them, are w. -/
def decodeTableWord (nbits w : Nat) : Option Instr :=
  match decode (bytesOfWord (tableWord nbits w)) with
  | .decoded i _ => some i
  | .unknownOpcode _ => none
  | .tooShort => none

end Sys2Proof
end

