-- ==== Sys2Proof/Config.lean ====
section
/-! DEFINITION. The fixed sizes (00_scope.md R8), the named parameters (R9) and the free values. -/

namespace Sys2Proof

namespace Config

/-! ### Fixed sizes (R8) -/

/-- MEM_SIZE: addresses 0x000-0xFFF. -/
@[simp] abbrev memSize : Nat := 4096
/-- GLYPH_BASE. -/
@[simp] abbrev glyphBase : Nat := 0x50
/-- GLYPH_SIZE: 16 glyphs of 5 bytes. -/
@[simp] abbrev glyphSize : Nat := 80
/-- PROG_BASE, also the reset value of PC. -/
@[simp] abbrev progBase : Nat := 0x200
/-- PROG_MAX. -/
@[simp] abbrev progMax : Nat := 3584
/-- STACK_DEPTH. -/
@[simp] abbrev stackDepth : Nat := 16

/-! ### Free values: constants with no body, so that no proof can see what they are -/

/-- The byte the random source delivers on its k-th draw when none was supplied from outside
(44_random.md R160: "every byte 0-255 is possible and claims hold for every r"). Log entry 2. -/
opaque rndByte : Nat → Byte

/-- The draw by which KEY_WAIT_CHOICE = AnyPressed picks one of the pressed keys
(46_keys.md R182: "a draw over the pressed set"). Log entry 3. -/
opaque keyPickByte : Nat → Byte

end Config

/-! ### Named parameters (R9). Log entry 1: they stand in a field of State that nothing writes. -/

/-- KEY_INDEX_OOR (46_keys.md R183). -/
inductive KeyIndexOor where
  | fault
  | lowNibble
  deriving DecidableEq, Repr

/-- GLYPH_DIGIT_OOR (43_index.md R151). -/
inductive GlyphDigitOor where
  | fault
  | lowNibble
  | unmasked
  deriving DecidableEq, Repr

/-- KEY_WAIT_CHOICE (46_keys.md R182). -/
inductive KeyWaitChoice where
  | lowest
  | anyPressed
  deriving DecidableEq, Repr

/-- TIMER_TICK_SOURCE (47_timers.md R193). -/
inductive TickSource where
  | perStep
  | external
  deriving DecidableEq, Repr

/-- The parameters the spec gives the model as arguments (R9). GLYPH_TABLE is the argument of
load_glyph_table, RNG the draw of RND. -/
structure Params where
  keyIndexOor   : KeyIndexOor
  glyphDigitOor : GlyphDigitOor
  keyWaitChoice : KeyWaitChoice
  tickSource    : TickSource
  /-- OFF_PIXEL: the four channel bytes of a pixel of value 0 (60_exceptions.md R246). -/
  offPixel      : Vector Byte 4
  deriving DecidableEq, Repr

/-- The defaults of R9. -/
def Params.default : Params where
  keyIndexOor   := .fault
  glyphDigitOor := .fault
  keyWaitChoice := .lowest
  tickSource    := .perStep
  offPixel      := #v[0x00, 0x00, 0x00, 0xFF]

end Sys2Proof
end

