-- ==== Sys2Proof/Machine/State.lean ====
section
/-! DEFINITION. The machine's state (10_state.md R20 to R39) as plain data, what can stop it, and
the state after reset. -/

namespace Sys2Proof.Machine

/-- Memory as (address, byte) pairs in canonical form (`Memory.wf`): addresses strictly rising, and
no entry equal to what an unlisted address reads as (`Memory.unlisted`). -/
abbrev Memory := List Host.Cell

/-- The framebuffer `Disp[x][y]`: 64 columns of 32 pixels (10_state.md R30). -/
abbrev Display := Vector (Vector Bool 32) 64

/-- The faults of the machine (60_exceptions.md R220), each with its info. All are fatal and named
by the spec, so stopping with one is what the hardware does. -/
inductive Fault where
  /-- Code 1. Raised by load_glyph_table on a length other than 80 (70_reset_and_hazards.md R263).
  Safe: the spec's own fault. -/
  | glyphTableSizeMismatch (len : Nat)
  /-- Code 2. Raised by load_program on a length above 3584 (R262). Safe: the spec's own fault. -/
  | programTooLarge (len : Nat)
  /-- Code 3. Raised by CALL with 16 entries on the stack (10_state.md R28). Safe: the spec's own
  fault. -/
  | stackOverflow
  /-- Code 4. Raised by RET with an empty stack (10_state.md R29). Safe: the spec's own fault. -/
  | stackUnderflow
  /-- Code 5. Raised by decode of a word that matches no row (30_encoding.md R92). Safe: the spec's
  own fault. -/
  | unknownOpcode (op : Word)
  /-- Code 6. Raised by a fetch with PC > 0xFFE and by DRW, LD B, LD [I] and LD Vx,[I] on a range
  beyond 0xFFF (20_memory.md R55, R57, R58): first address and length of the access. Safe: it stops
  where the source calls the access undefined (spec decisions D4, D5). -/
  | addressOutOfRange (a m : Nat)
  /-- Code 7. Raised by SKP and SKNP with V[x] > 15 under KEY_INDEX_OOR = Fault (46_keys.md R183).
  Safe: it stops where the source gives no meaning (spec decision D11). -/
  | keyIndexOutOfRange (v : Byte)
  /-- Code 8. Raised by LD F,Vx with V[x] > 15 under GLYPH_DIGIT_OOR = Fault (43_index.md R151).
  Safe: it stops where the source gives no meaning (spec decision D12). -/
  | digitOutOfRange (v : Byte)
  deriving DecidableEq, Repr

/-- The numeric code of a fault kind (60_exceptions.md R220). -/
def Fault.code : Fault → Nat
  | .glyphTableSizeMismatch _ => 1
  | .programTooLarge _ => 2
  | .stackOverflow => 3
  | .stackUnderflow => 4
  | .unknownOpcode _ => 5
  | .addressOutOfRange _ _ => 6
  | .keyIndexOutOfRange _ => 7
  | .digitOutOfRange _ => 8

/-- Why an operation is not performed at all. -/
inductive Refusal where
  /-- Raised by exec's arm of an instruction that has no meaning yet. Safe: nothing is claimed of
  it. No arm of this model raises it. -/
  | notModelled (mnemonic : String)
  /-- Raised by a step, a host tick or a load in a faulted state, where the spec has none
  (10_state.md R41, 60_exceptions.md R241, R248, 70_reset_and_hazards.md R264). Safe: the spec
  refuses it too. -/
  | faultedState
  /-- Raised by the host's tick under TIMER_TICK_SOURCE = PerStep, where the host has no tick
  operation (60_exceptions.md R248). Safe: the spec has no such move. -/
  | tickIsPerStep
  deriving DecidableEq, Repr

/-- `faulted(kind, addr, op)` of 10_state.md R36: the fault with its info, the fetch address (absent
for a load-time fault) and the fetched word (absent when the fetch itself faulted). -/
structure FaultRecord where
  kind : Fault
  addr : Option Word
  op   : Option Word
  deriving DecidableEq, Repr

/-- An input drawn one byte at a time: the bytes supplied from outside and not yet drawn, and how
many were drawn (log entries 2 and 3). -/
structure DrawSource where
  supplied : List Byte
  taken    : Nat
  deriving DecidableEq, Repr

/-- The complete state (10_state.md R38), and beside it the model's own fields `params`, `rnd` and
`keyPick` (log entries 1, 2, 3). -/
structure State where
  /-- V0-VF (R20) -/
  v       : Vector Byte 16
  /-- the index register I (R22) -/
  i       : Word
  /-- the program counter PC (R23) -/
  pc      : Word
  /-- the delay timer DT (R34) -/
  dt      : Byte
  /-- the sound timer ST (R34) -/
  st      : Byte
  /-- the 4096 bytes of memory (R25) -/
  mem     : Memory
  /-- return addresses, 0 to 16 of them, newest last (R26) -/
  stack   : List Word
  /-- the framebuffer (R30) -/
  disp    : Display
  /-- the dirty flag (R32) -/
  dirty   : Bool
  /-- the keypad latch (R33) -/
  keys    : Vector Bool 16
  /-- the fault status (R36) -/
  fault   : Option FaultRecord
  /-- the named parameters (00_scope.md R9); nothing writes them -/
  params  : Params
  /-- the random-byte source of RND (R35, 44_random.md R160) -/
  rnd     : DrawSource
  /-- the draw of LD Vx,K under AnyPressed (46_keys.md R182) -/
  keyPick : DrawSource
  deriving DecidableEq, Repr

/-- A display with every pixel 0. -/
def Display.blank : Display := Vector.replicate 64 (Vector.replicate 32 false)

/-- The state after construction (10_state.md R39, 70_reset_and_hazards.md R260) under a choice of
the named parameters. -/
def State.resetWith (p : Params) : State where
  v       := Vector.replicate 16 0
  i       := 0
  pc      := 0x200
  dt      := 0
  st      := 0
  mem     := []
  stack   := []
  disp    := Display.blank
  dirty   := false
  keys    := Vector.replicate 16 false
  fault   := none
  params  := p
  rnd     := ⟨[], 0⟩
  keyPick := ⟨[], 0⟩

/-- The machine right after reset, under the default parameters of 00_scope.md R9. -/
def State.reset : State := State.resetWith Params.default

end Sys2Proof.Machine
end

