-- ==== Sys2Proof/Machine/Ops.lean ====
section
/-! DEFINITION. The shared operations over registers, memory, the stack, the display, the draws, the
fetch, the skip, the tick, and entering the faulted state. -/

namespace Sys2Proof.Machine

/-! ### Memory (20_memory.md) -/

/-- What an address with no entry reads as: the reset value 0x00 (10_state.md R39). -/
def Memory.unlisted : Byte := 0

/-- `MemRead(a, 1)` after its range check (R51). -/
def Memory.read : Memory → Nat → Byte
  | [], _ => Memory.unlisted
  | (k, b) :: m, a => if a = k then b else Memory.read m a

/-- The entry (a, b) put before the first entry of a higher address. -/
def Memory.insert (a : Nat) (b : Byte) : Memory → Memory
  | [] => [(a, b)]
  | (k, c) :: m => if a < k then (a, b) :: (k, c) :: m else (k, c) :: Memory.insert a b m

/-- No entry for the address. -/
def Memory.erase (a : Nat) : Memory → Memory
  | [] => []
  | (k, c) :: m => if k = a then Memory.erase a m else (k, c) :: Memory.erase a m

/-- `MemWrite(a, 1, v)` after its range check (R51), keeping the canonical form: writing what an
unlisted address reads as removes the entry. -/
def Memory.write (m : Memory) (a : Nat) (b : Byte) : Memory :=
  if b = Memory.unlisted then Memory.erase a m else Memory.insert a b (Memory.erase a m)

/-- Every address is at least `lo`, below 4096 and above the one before it, and no entry holds the
unlisted value. -/
def Memory.wfFrom (lo : Nat) : Memory → Bool
  | [] => true
  | (k, b) :: m =>
    decide (lo ≤ k) && decide (k < Config.memSize) && b != Memory.unlisted
      && Memory.wfFrom (k + 1) m

/-- The canonical form of a memory. -/
def Memory.wf (m : Memory) : Bool := Memory.wfFrom 0 m

/-- The bytes of a list stored at consecutive addresses from `a`, in order. -/
def Memory.writeBytes : Memory → Nat → List Byte → Memory
  | m, _, [] => m
  | m, a, b :: bs => Memory.writeBytes (Memory.write m a b) (a + 1) bs

/-- The m bytes from address a all exist. A range of 0 bytes is never checked (R58); addresses are
mathematical integers (R55). -/
def inRange (a m : Nat) : Bool := decide (m = 0) || decide (a + m ≤ Config.memSize)

/-! ### Registers -/

/-- `V[x]` (10_state.md R20): no register is hardwired. -/
def State.reg (s : State) (x : RegIdx) : Byte := s.v[x]

/-- `V[x] <- b`. -/
def State.setReg (s : State) (x : RegIdx) (b : Byte) : State := { s with v := s.v.set x b }

/-- `V[0xF] <- b`, the write of a flag, always an instruction's last write (00_scope.md R14). -/
def State.setFlag (s : State) (b : Byte) : State := s.setReg VF b

/-- `I <- w`, not range-checked (10_state.md R22). -/
def State.setIndex (s : State) (w : Word) : State := { s with i := w }

/-- `PC <- w`, not range-checked (10_state.md R23). -/
def State.setPc (s : State) (w : Word) : State := { s with pc := w }

/-- `DT <- b`. -/
def State.setDt (s : State) (b : Byte) : State := { s with dt := b }

/-- `ST <- b`. -/
def State.setSt (s : State) (b : Byte) : State := { s with st := b }

/-- The byte at an address. -/
def State.memRead (s : State) (a : Nat) : Byte := s.mem.read a

/-- A byte stored at an address. -/
def State.memWrite (s : State) (a : Nat) (b : Byte) : State := { s with mem := s.mem.write a b }

/-- The registers V0, V1, … of the first `k`, stored from address `a` upwards in order
(48_bcd_block.md R201). -/
def State.storeBlock (a : Nat) : Nat → State → State
  | 0, s => s
  | k + 1, s => (State.storeBlock a k s).memWrite (a + k) (s.reg (Fin.ofNat 16 k))

/-- The first `k` registers V0, V1, … loaded from address `a` upwards in order (R202). -/
def State.loadBlock (a : Nat) : Nat → State → State
  | 0, s => s
  | k + 1, s => (State.loadBlock a k s).setReg (Fin.ofNat 16 k) (s.memRead (a + k))

/-! ### The call stack (10_state.md R26 to R29) -/

/-- The stack replaced. -/
def State.setStack (s : State) (st : List Word) : State := { s with stack := st }

/-- `Stack.push(a)` (R28): none at capacity, where the caller raises StackOverflow. -/
def stackPush (st : List Word) (a : Word) : Option (List Word) :=
  if st.length < Config.stackDepth then some (st ++ [a]) else none

/-- `Stack.pop()` (R29): the newest entry and the rest; none when empty, where the caller raises
StackUnderflow. -/
def stackPop (st : List Word) : Option (Word × List Word) :=
  match st.getLast? with
  | some a => some (a, st.dropLast)
  | none => none

/-! ### The display (10_state.md R30 to R32) -/

/-- `read(x, y)`. -/
def State.pixel (s : State) (px : Fin 64) (py : Fin 32) : Bool := s.disp[px][py]

/-- `write(x, y, v)`: the pixel is set, and the flag becomes dirty whatever its value was. -/
def State.writePixel (s : State) (px : Fin 64) (py : Fin 32) (b : Bool) : State :=
  { s with disp := s.disp.set px (s.disp[px].set py b), dirty := true }

/-- `clear()`: every pixel 0, dirty. -/
def State.clearDisplay (s : State) : State := { s with disp := Display.blank, dirty := true }

/-! ### Draws -/

/-- The next byte of a draw: the first one supplied from outside, else the free value of the count
of draws taken. -/
def DrawSource.next (free : Nat → Byte) (d : DrawSource) : Byte :=
  match d.supplied with
  | b :: _ => b
  | [] => free d.taken

/-- The source after one draw. -/
def DrawSource.advance (d : DrawSource) : DrawSource := ⟨d.supplied.tail, d.taken + 1⟩

/-- `draw RND_IN` (44_random.md R160): the byte the next execution of RND draws. -/
def State.rndByte (s : State) : Byte := s.rnd.next Config.rndByte

/-- The state after that draw. -/
def State.drawRnd (s : State) : State := { s with rnd := s.rnd.advance }

/-- The byte by which the next LD Vx,K under AnyPressed picks a pressed key (46_keys.md R182). -/
def State.keyPickByte (s : State) : Byte := s.keyPick.next Config.keyPickByte

/-- The state after that draw. -/
def State.drawKeyPick (s : State) : State := { s with keyPick := s.keyPick.advance }

/-! ### Program flow -/

/-- `PC` one instruction word further (10_state.md R23). -/
def State.advancePc (s : State) : State := s.setPc (s.pc + 2)

/-- A conditional skip (40_control_flow.md R108). -/
def State.skipIf (s : State) (c : Bool) : State := if c then s.advancePc else s

/-- The instruction fetch `MemRead(PC, 2)` (20_memory.md R53, R57): none when PC > 0xFFE. -/
def fetch (s : State) : Option Word :=
  if inRange s.pc.toNat 2 then
    some (wordOfBytes (s.memRead s.pc.toNat) (s.memRead (s.pc.toNat + 1)))
  else none

/-- One timer's decrement, floored at 0 (47_timers.md R193, R194). -/
def tickDown (b : Byte) : Byte := if b = 0 then 0 else b - 1

/-- `tick()` (47_timers.md R193). -/
def State.tick (s : State) : State := { s with dt := tickDown s.dt, st := tickDown s.st }

/-- The tick at the end of a step, under TIMER_TICK_SOURCE = PerStep only (10_state.md R42). -/
def State.endOfStepTick (s : State) : State :=
  match s.params.tickSource with
  | .perStep => s.tick
  | .external => s

/-! ### Faults (60_exceptions.md) -/

/-- `raise F(info)`: the step ends at once with the error result F(info). No state is answered, so
the state before the step stands (R230); `enterFaulted` gives the faulted state. -/
def raise (f : Fault) : Host.Outcome State Fault Refusal := .fault f

/-- Entry into the faulted state (R230, R231): `s` is the state before the step, every field keeps
its value, and the fault field records the fault, the fetch address and the fetched word. There is
no return from it. -/
def State.enterFaulted (s : State) (f : Fault) (addr op : Option Word) : State :=
  { s with fault := some ⟨f, addr, op⟩ }

/-- The faults a step can take before an instruction executes: the fetch check first, then decode
(R223). -/
def fetchFault (s : State) : Fault := .addressOutOfRange s.pc.toNat 2

/-- The end of a step: what the instruction answers, with the tick after a next state
(10_state.md R42). -/
def endStep : Host.Outcome State Fault Refusal → Host.Outcome State Fault Refusal
  | .next t => .next t.endOfStepTick
  | .fault f => .fault f
  | .refused r => .refused r

/-! ### Placing an instruction for the next step -/

/-- The state with `w` stored big-endian at PC. Where the next step would not fetch at PC (a PC out
of the fetch range, a faulted state), PC is moved to the entry point and the fault field cleared, so
that the very next step runs the word (log entry 8). -/
def State.placeWord (s : State) (w : Word) : State :=
  let t : State := { s with pc := if inRange s.pc.toNat 2 then s.pc else 0x200, fault := none }
  { t with mem := t.mem.writeBytes t.pc.toNat (bytesOfWord w) }

end Sys2Proof.Machine
end

