-- ==== Sys2Proof/Machine/Operands.lean ====
section
/-! DEFINITION. The operand forms: what an instruction computes from its fields and the registers
they name before it acts. -/

namespace Sys2Proof.Machine

/-- `zext_16(nnn)` (30_encoding.md R83). -/
def addrOperand (nnn : Addr12) : Word := nnn.setWidth 16

/-- A register's byte zero-extended to 16 bits. -/
def wordOperand (b : Byte) : Word := b.setWidth 16

/-- `keyindex(v)` (46_keys.md R183): none where KeyIndexOutOfRange is raised. -/
def keyIndex (p : Params) (v : Byte) : Option (Fin 16) :=
  if h : v.toNat < 16 then some ⟨v.toNat, h⟩
  else match p.keyIndexOor with
    | .fault => none
    | .lowNibble => some (Fin.ofNat 16 v.toNat)

/-- The digit LD F,Vx uses (43_index.md R151): none where DigitOutOfRange is raised. -/
def glyphDigit (p : Params) (v : Byte) : Option Nat :=
  if v.toNat ≤ 15 then some v.toNat
  else match p.glyphDigitOor with
    | .fault => none
    | .lowNibble => some (v.toNat % 16)
    | .unmasked => some v.toNat

/-- `glyph_address(d)` (20_memory.md R61). -/
def glyphAddress (d : Nat) : Word := BitVec.ofNat 16 (Config.glyphBase + 5 * d)

/-- The sixteen keys in index order. -/
def allKeys : List (Fin 16) := [0, 1, 2, 3, 4, 5, 6, 7, 8, 9, 10, 11, 12, 13, 14, 15]

/-- `Keys[k]`. -/
def State.key (s : State) (k : Fin 16) : Bool := s.keys[k]

/-- The pressed keys, lowest index first (46_keys.md R182). -/
def pressedKeys (s : State) : List (Fin 16) := allKeys.filter s.key

/-- The three decimal digits of LD B,Vx (48_bcd_block.md R200). -/
def bcdDigits (v : Byte) : List Byte :=
  [BitVec.ofNat 8 (v.toNat / 100), BitVec.ofNat 8 (v.toNat / 10 % 10), BitVec.ofNat 8 (v.toNat % 10)]

/-- The sprite bit of column `col` of a sprite byte: bit 7 is column 0 (45_draw.md R168). -/
def spriteBit (b : Byte) (col : Nat) : Bool := b.getLsbD (7 - col)

/-- The display column of sprite column `col` (45_draw.md R167). -/
def spriteColumn (x0 : Byte) (col : Nat) : Fin 64 := Fin.ofNat 64 (x0.toNat + col)

/-- The display row of sprite row `row` (45_draw.md R167). -/
def spriteRow (y0 : Byte) (row : Nat) : Fin 32 := Fin.ofNat 32 (y0.toNat + row)

end Sys2Proof.Machine
end

