-- ==== Sys2Proof/Machine/Block.lean ====
section
/-! DEFINITION. BCD and block transfer (48_bcd_block.md). Each checks its whole range first
(20_memory.md R58), and none changes I. -/

namespace Sys2Proof.Machine

/-- LD B, Vx (R200). -/
def execLdB (x : RegIdx) (s : State) : Host.Outcome State Fault Refusal :=
  if inRange s.i.toNat 3 then
    .next { s with mem := s.mem.writeBytes s.i.toNat (bcdDigits (s.reg x)) }
  else raise (.addressOutOfRange s.i.toNat 3)

/-- LD [I], Vx (R201). -/
def execStoreRegs (x : RegIdx) (s : State) : Host.Outcome State Fault Refusal :=
  if inRange s.i.toNat (x.val + 1) then
    .next (State.storeBlock s.i.toNat (x.val + 1) s)
  else raise (.addressOutOfRange s.i.toNat (x.val + 1))

/-- LD Vx, [I] (R202). -/
def execLoadRegs (x : RegIdx) (s : State) : Host.Outcome State Fault Refusal :=
  if inRange s.i.toNat (x.val + 1) then
    .next (State.loadBlock s.i.toNat (x.val + 1) s)
  else raise (.addressOutOfRange s.i.toNat (x.val + 1))

end Sys2Proof.Machine
end

