-- ==== Sys2Proof/Machine/Clear.lean ====
section
/-! DEFINITION. Clear screen (49_clear.md). Every meaning runs in the state after the fetch, where PC
is already past the instruction (10_state.md R23). -/

namespace Sys2Proof.Machine

/-- CLS (R210). -/
def execCls (s : State) : Host.Outcome State Fault Refusal := .next s.clearDisplay

end Sys2Proof.Machine
end

