-- ==== Sys2Proof/Machine/Control.lean ====
section
/-! DEFINITION. Control flow (40_control_flow.md). -/

namespace Sys2Proof.Machine

/-- RET (R100). -/
def execRet (s : State) : Host.Outcome State Fault Refusal :=
  match stackPop s.stack with
  | some (a, st) => .next ((s.setStack st).setPc a)
  | none => raise .stackUnderflow

/-- JP addr (R101). -/
def execJp (nnn : Addr12) (s : State) : Host.Outcome State Fault Refusal :=
  .next (s.setPc (addrOperand nnn))

/-- CALL addr (R102): the PC pushed is already that of the next instruction. -/
def execCall (nnn : Addr12) (s : State) : Host.Outcome State Fault Refusal :=
  match stackPush s.stack s.pc with
  | some st => .next ((s.setStack st).setPc (addrOperand nnn))
  | none => raise .stackOverflow

/-- JP V0, addr (R107). -/
def execJpV0 (nnn : Addr12) (s : State) : Host.Outcome State Fault Refusal :=
  .next (s.setPc (wordOperand (s.reg 0) + addrOperand nnn))

/-- SE Vx, kk (R103). -/
def execSeImm (x : RegIdx) (kk : Byte) (s : State) : Host.Outcome State Fault Refusal :=
  .next (s.skipIf (s.reg x == kk))

/-- SNE Vx, kk (R104). -/
def execSneImm (x : RegIdx) (kk : Byte) (s : State) : Host.Outcome State Fault Refusal :=
  .next (s.skipIf (s.reg x != kk))

/-- SE Vx, Vy (R105). -/
def execSeReg (x y : RegIdx) (s : State) : Host.Outcome State Fault Refusal :=
  .next (s.skipIf (s.reg x == s.reg y))

/-- SNE Vx, Vy (R106). -/
def execSneReg (x y : RegIdx) (s : State) : Host.Outcome State Fault Refusal :=
  .next (s.skipIf (s.reg x != s.reg y))

end Sys2Proof.Machine
end

