-- ==== Sys2Proof/Machine/Draw.lean ====
section
/-! DEFINITION. Sprite draw (45_draw.md). -/

namespace Sys2Proof.Machine

/-- A sprite bit equal to 1 on a pixel: VF becomes 1 where it turns a set pixel off (R166), and the
pixel is inverted, which marks the display dirty (R165). -/
def State.flipPixel (s : State) (px : Fin 64) (py : Fin 32) : State :=
  (if s.pixel px py then s.setFlag 1 else s).writePixel px py (!s.pixel px py)

/-- One sprite bit: a 0 bit leaves the pixel and the dirty flag alone (R169). -/
def State.drawBit (bit : Bool) (px : Fin 64) (py : Fin 32) (s : State) : State :=
  if bit then s.flipPixel px py else s

/-- The first `k` columns of one sprite row, column 0 first. -/
def State.drawCols (x0 : Byte) (b : Byte) (py : Fin 32) : Nat → State → State
  | 0, s => s
  | k + 1, s => (State.drawCols x0 b py k s).drawBit (spriteBit b k) (spriteColumn x0 k) py

/-- The first `k` sprite rows, row 0 first, each from the byte at I + row. -/
def State.drawRows (x0 y0 : Byte) : Nat → State → State
  | 0, s => s
  | k + 1, s =>
    let t := State.drawRows x0 y0 k s
    t.drawCols x0 (t.memRead (t.i.toNat + k)) (spriteRow y0 k) 8

/-- DRW Vx, Vy, n (R165): the coordinates are read before VF is reset (R169), and the whole byte
range is checked before anything changes (20_memory.md R58). -/
def execDrw (x y : RegIdx) (n : Nat) (s : State) : Host.Outcome State Fault Refusal :=
  if inRange s.i.toNat n then
    .next (State.drawRows (s.reg x) (s.reg y) n (s.setFlag 0))
  else raise (.addressOutOfRange s.i.toNat n)

end Sys2Proof.Machine
end

