-- ==== Sys2Proof/Machine/Immediate.lean ====
section
/-! DEFINITION. Loads and arithmetic on immediates (41_immediate.md). -/

namespace Sys2Proof.Machine

/-- LD Vx, kk (R120). -/
def execLdImm (x : RegIdx) (kk : Byte) (s : State) : Host.Outcome State Fault Refusal :=
  .next (s.setReg x kk)

/-- ADD Vx, kk (R121): wraps modulo 256 and writes no flag. -/
def execAddImm (x : RegIdx) (kk : Byte) (s : State) : Host.Outcome State Fault Refusal :=
  .next (s.setReg x (s.reg x + kk))

end Sys2Proof.Machine
end

