-- ==== Sys2Proof/Machine/Index.lean ====
section
/-! DEFINITION. Index register loads (43_index.md). -/

namespace Sys2Proof.Machine

/-- LD I, addr (R150). -/
def execLdI (nnn : Addr12) (s : State) : Host.Outcome State Fault Refusal :=
  .next (s.setIndex (addrOperand nnn))

/-- LD F, Vx (R151). -/
def execLdF (x : RegIdx) (s : State) : Host.Outcome State Fault Refusal :=
  match glyphDigit s.params (s.reg x) with
  | some d => .next (s.setIndex (glyphAddress d))
  | none => raise (.digitOutOfRange (s.reg x))

/-- ADD I, Vx (R152): the flag tests the new I. -/
def execAddI (x : RegIdx) (s : State) : Host.Outcome State Fault Refusal :=
  let newI := s.i + wordOperand (s.reg x)
  .next ((s.setIndex newI).setFlag (indexFlag newI))

end Sys2Proof.Machine
end

