-- ==== Sys2Proof/Machine/Keys.lean ====
section
/-! DEFINITION. Key-dependent instructions (46_keys.md). -/

namespace Sys2Proof.Machine

/-- SKP Vx (R180). -/
def execSkp (x : RegIdx) (s : State) : Host.Outcome State Fault Refusal :=
  match keyIndex s.params (s.reg x) with
  | some k => .next (s.skipIf (s.key k))
  | none => raise (.keyIndexOutOfRange (s.reg x))

/-- SKNP Vx (R181). -/
def execSknp (x : RegIdx) (s : State) : Host.Outcome State Fault Refusal :=
  match keyIndex s.params (s.reg x) with
  | some k => .next (s.skipIf (!s.key k))
  | none => raise (.keyIndexOutOfRange (s.reg x))

/-- A key index as the byte LD Vx,K stores. -/
def keyByte (k : Fin 16) : Byte := BitVec.ofNat 8 k.val

/-- The key LD Vx,K stores when the lowest pressed key is `k` and `ks` are the other pressed ones,
in index order, and the state after the draw that AnyPressed makes (R182). -/
def State.chooseKey (s : State) (k : Fin 16) (ks : List (Fin 16)) : Fin 16 × State :=
  match s.params.keyWaitChoice with
  | .lowest => (k, s)
  | .anyPressed =>
    ((k :: ks).getD (s.keyPickByte.toNat % (ks.length + 1)) k, s.drawKeyPick)

/-- LD Vx, K (R182, R184): with no key pressed PC goes back to the instruction itself. -/
def execLdVxK (x : RegIdx) (s : State) : Host.Outcome State Fault Refusal :=
  match pressedKeys s with
  | [] => .next (s.setPc (s.pc - 2))
  | k :: ks =>
    let c := s.chooseKey k ks
    .next (c.2.setReg x (keyByte c.1))

end Sys2Proof.Machine
end

