-- ==== Sys2Proof/Machine/Random.lean ====
section
/-! DEFINITION. Random (44_random.md). -/

namespace Sys2Proof.Machine

/-- RND Vx, kk (R160): one byte is drawn whatever the mask is. -/
def execRnd (x : RegIdx) (kk : Byte) (s : State) : Host.Outcome State Fault Refusal :=
  .next (s.drawRnd.setReg x (s.rndByte &&& kk))

end Sys2Proof.Machine
end

