-- ==== Sys2Proof/Machine/Step.lean ====
section
/-! DEFINITION. One step (10_state.md R40 to R43): fetch, advance PC, decode, execute, tick. -/

namespace Sys2Proof.Machine

/-- `step()` (R42). It is refused in a faulted state (R41). A fault answers no state: the one before
the step stands (60_exceptions.md R230), and `stepOp` of Machine/HostOps.lean records it. -/
def step (s : State) : Host.Outcome State Fault Refusal :=
  match s.fault with
  | some _ => .refused .faultedState
  | none =>
    match fetch s with
    | none => raise (fetchFault s)
    | some op =>
      match decodeWord op with
      | none => raise (.unknownOpcode op)
      | some i => endStep (exec i s.advancePc)

/-- The state with the instruction of the table's bits `w` stored where the next step fetches
(log entry 8). -/
def State.withFetchWord (s : State) (nbits w : Nat) : State := s.placeWord (tableWord nbits w)

end Sys2Proof.Machine
end

