-- ==== Sys2Proof/Machine/HostOps.lean ====
section
/-! DEFINITION. The host's operations (60_exceptions.md section 5, 70_reset_and_hazards.md section 2).
The host issues them one at a time, between steps (10_state.md R40). -/

namespace Sys2Proof.Machine

/-- An operation of the interface (60_exceptions.md R240). The key index is a 4-bit value (R244). -/
inductive HostOp where
  | loadGlyphTable (bytes : List Byte)
  | loadProgram (bytes : List Byte)
  | step
  | setKey (k : Fin 16) (pressed : Bool)
  | displayDirty
  | render
  | readSound
  | tick
  deriving DecidableEq, Repr

/-- What an operation returns to the host. -/
inductive HostReply where
  /-- done, no value -/
  | ok
  /-- the error result F(info) of a fault (R230, R232) -/
  | error (f : Fault)
  /-- the operation is not performed -/
  | refused (r : Refusal)
  /-- display_dirty's answer (R245) -/
  | dirty (b : Bool)
  /-- the contents of the caller's render buffer (R246) -/
  | buffer (bytes : List Byte)
  /-- read_sound's answer (R247) -/
  | sound (b : Byte)
  deriving DecidableEq, Repr

/-! ### The step as the host sees it -/

/-- `step()` returning ok or the error result (R241). On a fault the state is the one before the step
with the fault recorded: the fetch address, and the fetched word where there was one (R230). -/
def stepOp (s : State) : State × HostReply :=
  match step s with
  | .next t => (t, .ok)
  | .fault f => (s.enterFaulted f (some s.pc) (fetch s), .error f)
  | .refused r => (s, .refused r)

/-! ### Loads -/

/-- A load of `bytes` at `a`: admitted at any time the state is not faulted
(70_reset_and_hazards.md R264). On the fault `f` it writes no byte, and the fault field is set with
no fetch address (60_exceptions.md R232). -/
def loadOp (s : State) (a : Nat) (bytes : List Byte) (sizeOk : Bool) (f : Fault) : State × HostReply :=
  match s.fault with
  | some _ => (s, .refused .faultedState)
  | none =>
    if sizeOk then ({ s with mem := s.mem.writeBytes a bytes }, .ok)
    else (s.enterFaulted f none none, .error f)

/-- `load_program(bytes)` (R262). -/
def loadProgram (s : State) (bytes : List Byte) : State × HostReply :=
  loadOp s Config.progBase bytes (decide (bytes.length ≤ Config.progMax))
    (.programTooLarge bytes.length)

/-- `load_glyph_table(bytes)` (R263). -/
def loadGlyphTable (s : State) (bytes : List Byte) : State × HostReply :=
  loadOp s Config.glyphBase bytes (decide (bytes.length = Config.glyphSize))
    (.glyphTableSizeMismatch bytes.length)

/-! ### Keys, display, sound, tick -/

/-- `set_key(index, pressed)` (R244). -/
def setKey (s : State) (k : Fin 16) (pressed : Bool) : State := { s with keys := s.keys.set k pressed }

/-- `press(key)` (R244). -/
def pressKey (s : State) (k : Fin 16) : State := setKey s k true

/-- `release(key)` (R244). -/
def releaseKey (s : State) (k : Fin 16) : State := setKey s k false

/-- `pressed(key)` (R244). -/
def keyPressed (s : State) (k : Fin 16) : Bool := s.key k

/-- `display_dirty()` (R245). -/
def displayDirty (s : State) : Bool := s.dirty

/-- The four channel bytes of a pixel (R246): fully opaque white, or the parameter OFF_PIXEL. -/
def pixelChannels (p : Params) (b : Bool) : List Byte :=
  if b then [0xFF, 0xFF, 0xFF, 0xFF] else p.offPixel.toList

/-- The bytes of display row `y`, column 0 first. -/
def renderRow (s : State) (y : Fin 32) : List Byte :=
  (List.finRange 64).flatMap fun x => pixelChannels s.params (s.pixel x y)

/-- The 8192 bytes `render` writes to the caller's buffer, row-major (R246). -/
def renderBuffer (s : State) : List Byte := (List.finRange 32).flatMap (renderRow s)

/-- The state after `render`: only the dirty flag is cleared (R246). -/
def afterRender (s : State) : State := { s with dirty := false }

/-- `read_sound()` (R247). -/
def readSound (s : State) : Byte := s.st

/-- The host's `tick()` (R248): under External only, and refused in a faulted state. -/
def tickOp (s : State) : State × HostReply :=
  match s.params.tickSource with
  | .perStep => (s, .refused .tickIsPerStep)
  | .external =>
    match s.fault with
    | some _ => (s, .refused .faultedState)
    | none => (s.tick, .ok)

/-- One host operation: the state after it and what it returns. -/
def hostOp (o : HostOp) (s : State) : State × HostReply :=
  match o with
  | .loadGlyphTable bytes => loadGlyphTable s bytes
  | .loadProgram bytes => loadProgram s bytes
  | .step => stepOp s
  | .setKey k pressed => (setKey s k pressed, .ok)
  | .displayDirty => (s, .dirty (displayDirty s))
  | .render => (afterRender s, .buffer (renderBuffer s))
  | .readSound => (s, .sound (readSound s))
  | .tick => tickOp s

/-- The state after a session's operations, in order. -/
def session : List HostOp → State → State
  | [], s => s
  | o :: os, s => session os (hostOp o s).1

end Sys2Proof.Machine
end

