-- ==== Sys2Proof/Safety.lean ====
section
/-! DEFINITION. The terms claims are stated in: the invariant of a session, the frame of an
instruction, and what a sprite covers. -/

namespace Sys2Proof.Machine

/-- What holds of every state a session reaches: memory in canonical form, at most 16 return
addresses (10_state.md R26), each one a fetch address plus 2 (40_control_flow.md R100), and PC
where a jump, skip or return can leave it (R107: at most 0x10FE). -/
abbrev State.Inv (s : State) : Prop :=
  s.mem.wf = true ∧ s.stack.length ≤ 16 ∧
  (∀ a ∈ s.stack, 2 ≤ a.toNat ∧ a.toNat ≤ 0x1000) ∧ s.pc.toNat ≤ 0x10FE

/-- What an instruction may change; everything not named is kept (`Frame`). -/
structure Changes where
  /-- general registers that may change -/
  regs    : List RegIdx := []
  /-- I may change -/
  index   : Bool := false
  /-- PC may change beyond the fetch's advance -/
  pc      : Bool := false
  /-- DT may change -/
  dt      : Bool := false
  /-- ST may change -/
  st      : Bool := false
  /-- the addresses `storeFrom`, …, `storeFrom + storeLen - 1` are stored to -/
  storeFrom : Nat := 0
  storeLen  : Nat := 0
  /-- the return-address stack may change -/
  stack   : Bool := false
  /-- pixels and the dirty flag may change -/
  display : Bool := false
  /-- the random source is drawn from -/
  rnd     : Bool := false
  /-- the draw over the pressed keys is taken -/
  keyPick : Bool := false

/-- `t` differs from `s` only in what `c` names. The keypad latch, the fault field and the
parameters are never named: no instruction changes them. -/
structure Frame (c : Changes) (s t : State) : Prop where
  regs    : ∀ r, r ∉ c.regs → t.reg r = s.reg r
  index   : c.index = false → t.i = s.i
  pc      : c.pc = false → t.pc = s.pc
  dt      : c.dt = false → t.dt = s.dt
  st      : c.st = false → t.st = s.st
  mem     : ∀ a, ¬ (c.storeFrom ≤ a ∧ a < c.storeFrom + c.storeLen) → t.memRead a = s.memRead a
  stack   : c.stack = false → t.stack = s.stack
  display : c.display = false → (∀ px py, t.pixel px py = s.pixel px py) ∧ t.dirty = s.dirty
  rnd     : c.rnd = false → t.rnd = s.rnd
  keyPick : c.keyPick = false → t.keyPick = s.keyPick
  keys    : ∀ k, t.key k = s.key k
  fault   : t.fault = s.fault
  params  : t.params = s.params

/-- The sprite of DRW Vx,Vy,n in state `s` has a bit equal to 1 that lands on pixel (px, py): column
(V[x] + col) mod 64, row (V[y] + row) mod 32, bit 7 - col of the byte at I + row (45_draw.md R167,
R168). -/
def spriteCovers (s : State) (x y : RegIdx) (n : Nat) (px : Fin 64) (py : Fin 32) : Prop :=
  ∃ row col : Nat, row < n ∧ col < 8 ∧
    px.val = ((s.reg x).toNat + col) % 64 ∧ py.val = ((s.reg y).toNat + row) % 32 ∧
    (s.memRead (s.i.toNat + row)).getLsbD (7 - col) = true

/-- The instruction writes VF as a flag, whatever its operands (10_state.md R21). -/
def writesFlag : Instr → Bool
  | .addReg _ _ | .sub _ _ | .shr _ _ | .subn _ _ | .shl _ _ | .addI _ | .drw _ _ _ => true
  | .cls | .ret | .jp _ | .call _ | .seImm _ _ | .sneImm _ _ | .seReg _ _ | .ldImm _ _
  | .addImm _ _ | .ldReg _ _ | .orReg _ _ | .andReg _ _ | .xorReg _ _ | .sneReg _ _ | .ldI _
  | .jpV0 _ | .rnd _ _ | .skp _ | .sknp _ | .ldVxDt _ | .ldVxK _ | .ldDtVx _ | .ldStVx _
  | .ldF _ | .ldB _ | .storeRegs _ | .loadRegs _ => false

/-- The registers an instruction names as its destination (the V[x] of its rule, or V0..Vx). -/
def namesDestination : Instr → RegIdx → Bool
  | .ldImm x _, r | .addImm x _, r | .rnd x _, r | .ldVxDt x, r | .ldVxK x, r => r == x
  | .ldReg x _, r | .orReg x _, r | .andReg x _, r | .xorReg x _, r => r == x
  | .addReg x _, r | .sub x _, r | .shr x _, r | .subn x _, r | .shl x _, r => r == x
  | .loadRegs x, r => decide (r ≤ x)
  | .cls, _ | .ret, _ | .jp _, _ | .call _, _ | .seImm _ _, _ | .sneImm _ _, _ | .seReg _ _, _
  | .sneReg _ _, _ | .ldI _, _ | .jpV0 _, _ | .drw _ _ _, _ | .skp _, _ | .sknp _, _
  | .ldDtVx _, _ | .ldStVx _, _ | .addI _, _ | .ldF _, _ | .ldB _, _ | .storeRegs _, _ => false

end Sys2Proof.Machine
end

