-- ==== Sys2Proof/Certificates/Slice0/Obligations.lean ====
section
/-! DEFINITION. The statements for the provers. In every statement about `exec`, `s` is the state
after the fetch, where PC is already past the instruction (10_state.md R23). A decoding clause states the encoding the
instruction's own rule names; its bits are those of 30_encoding.md R90, the spec's general knowledge
G1 (log entry 13). -/

open Sys2Proof Sys2Proof.Machine

/-! ### Encoding -/

/-- 30_encoding.md R84, R90: decode of the two bytes of a well-formed instruction is that
instruction, and leaves the bytes after them. -/
def Obligations.DecodeOfEncodeIsInstruction : Prop :=
  ∀ (i : Instr) (rest : List Byte), i.wellFormed = true →
    decodeWord (encode i) = some i ∧ decode (encodeBytes i ++ rest) = .decoded i rest

/-- 30_encoding.md R80, R81: a word that decodes is the encoding of what it decodes to, and that
instruction is well formed. -/
def Obligations.EncodeOfDecodeIsWord : Prop :=
  ∀ (op : Word) (i : Instr), decodeWord op = some i → i.wellFormed = true ∧ encode i = op

/-- 30_encoding.md R91: at most one of the 34 rows matches a word, the word is unknown when none
does, and it is the row's instruction when one does. -/
def Obligations.OpcodeRowsNeverOverlap : Prop :=
  opcodeRows.length = 34 ∧
  ∀ op : Word,
    (opcodeRows.filter (fun r => op &&& r.mask == r.pattern)).length ≤ 1 ∧
    (decodeWord op = none ↔ ∀ r ∈ opcodeRows, op &&& r.mask ≠ r.pattern) ∧
    (∀ r ∈ opcodeRows, op &&& r.mask = r.pattern → decodeWord op = some (r.build op))

/-- 30_encoding.md R92 (its list is derived by the spec): exactly the listed words are unknown. -/
def Obligations.UnknownWordsAreTheListedOnes : Prop :=
  ∀ op : Word, decodeWord op = none ↔
    (op.toNat < 0x1000 ∧ op ≠ 0x00E0 ∧ op ≠ 0x00EE) ∨
    ((op.toNat / 0x1000 = 5 ∨ op.toNat / 0x1000 = 9) ∧ op.toNat % 16 ≠ 0) ∨
    (op.toNat / 0x1000 = 8 ∧ op.toNat % 16 ∈ [0x8, 0x9, 0xA, 0xB, 0xC, 0xD, 0xF]) ∨
    (op.toNat / 0x1000 = 0xE ∧ op.toNat % 256 ∉ [0x9E, 0xA1]) ∨
    (op.toNat / 0x1000 = 0xF ∧
      op.toNat % 256 ∉ [0x07, 0x0A, 0x15, 0x18, 0x1E, 0x29, 0x33, 0x55, 0x65])

/-- 30_encoding.md R85: a word of each of the sixteen family nibbles, and of every instruction file
40_control_flow.md to 49_clear.md, written out from R90, decodes to its instruction. -/
def Obligations.WrittenOutWordsDecode : Prop :=
  decodeWord 0b0000000011100000 = some .cls ∧
  decodeWord 0b0001001101000101 = some (.jp 0x345) ∧
  decodeWord 0b0010001100000001 = some (.call 0x301) ∧
  decodeWord 0b0011101001000010 = some (.seImm 0xA 0x42) ∧
  decodeWord 0b0100001101000010 = some (.sneImm 3 0x42) ∧
  decodeWord 0b0101000100100000 = some (.seReg 1 2) ∧
  decodeWord 0b0110101001000010 = some (.ldImm 0xA 0x42) ∧
  decodeWord 0b0111101011111111 = some (.addImm 0xA 0xFF) ∧
  decodeWord 0b1000000100100111 = some (.subn 1 2) ∧
  decodeWord 0b1001000100100000 = some (.sneReg 1 2) ∧
  decodeWord 0b1010001101000101 = some (.ldI 0x345) ∧
  decodeWord 0b1011001100000000 = some (.jpV0 0x300) ∧
  decodeWord 0b1100001111110000 = some (.rnd 3 0xF0) ∧
  decodeWord 0b1101000100100101 = some (.drw 1 2 5) ∧
  decodeWord 0b1110001010100001 = some (.sknp 2) ∧
  decodeWord 0b1111001100001010 = some (.ldVxK 3) ∧
  decodeWord 0b1111010000010101 = some (.ldDtVx 4) ∧
  decodeWord 0b1111000100011110 = some (.addI 1) ∧
  decodeWord 0b1111000100101001 = some (.ldF 1) ∧
  decodeWord 0b1111001001100101 = some (.loadRegs 2)

/-! ### Reset and the step -/

/-- 10_state.md R39 under every choice of the parameters (the values other than PC's are the spec's
own decision D17, log entry 4): every field at reset. That the parameters stand in a field of State is
log entry 1. -/
def Obligations.ResetHoldsTheListedValues : Prop :=
  State.reset = State.resetWith Params.default ∧
  ∀ p : Params,
    (State.resetWith p).pc = 0x200 ∧ (∀ r, (State.resetWith p).reg r = 0) ∧
    (State.resetWith p).i = 0 ∧ (State.resetWith p).dt = 0 ∧ (State.resetWith p).st = 0 ∧
    (∀ a, (State.resetWith p).memRead a = 0) ∧ (State.resetWith p).stack = [] ∧
    (∀ px py, (State.resetWith p).pixel px py = false) ∧ (State.resetWith p).dirty = false ∧
    (∀ k, (State.resetWith p).key k = false) ∧ (State.resetWith p).fault = none ∧
    (State.resetWith p).params = p

/-- 10_state.md R42: when no fault is recorded and the bytes at PC decode to i, step is exec of i
with PC past the word, which is never refused, and the timers tick after it under
TIMER_TICK_SOURCE = PerStep. -/
def Obligations.StepRunsTheDecodedInstruction : Prop :=
  ∀ (s : State) (i : Instr), s.fault = none → s.pc.toNat ≤ 0xFFE →
    decode [s.memRead s.pc.toNat, s.memRead (s.pc.toNat + 1)] = .decoded i [] →
    (∀ t, exec i (s.setPc (s.pc + 2)) = .next t →
      (t.params.tickSource = .perStep → step s = .next t.tick) ∧
      (t.params.tickSource = .external → step s = .next t)) ∧
    (∀ f, exec i (s.setPc (s.pc + 2)) = .fault f → step s = .fault f) ∧
    (∀ r, exec i (s.setPc (s.pc + 2)) ≠ .refused r)

/-- 20_memory.md R57 and 30_encoding.md R92, in the order of 60_exceptions.md R223 (spec decisions
D5, D20): a fetch past 0xFFE faults whatever memory holds, and an in-range unknown word faults. -/
def Obligations.FetchAndDecodeFault : Prop :=
  ∀ s : State, s.fault = none →
    (0xFFE < s.pc.toNat → step s = .fault (.addressOutOfRange s.pc.toNat 2)) ∧
    (∀ op : Word, s.pc.toNat ≤ 0xFFE →
      op.toNat = (s.memRead s.pc.toNat).toNat * 256 + (s.memRead (s.pc.toNat + 1)).toNat →
      decodeWord op = none → step s = .fault (.unknownOpcode op))

/-- 10_state.md R41 (spec decision D19): a step is refused exactly in a faulted state; no
instruction is refused. -/
def Obligations.StepIsRefusedExactlyWhenFaulted : Prop :=
  ∀ s : State, (s.fault ≠ none → step s = .refused .faultedState) ∧
    ((∃ r, step s = .refused r) → s.fault ≠ none)

/-- 60_exceptions.md R222: the fault each instruction can raise; every other instruction raises
none. -/
def Obligations.InstructionsRaiseOnlyTheirOwnFault : Prop :=
  ∀ (i : Instr) (s : State) (f : Fault), exec i s = .fault f →
    (f = .stackOverflow ∧ ∃ nnn, i = .call nnn) ∨
    (f = .stackUnderflow ∧ i = .ret) ∨
    (∃ m, f = .addressOutOfRange s.i.toNat m ∧ 1 ≤ m ∧ 0xFFF < s.i.toNat + m - 1 ∧
      ((∃ x y, i = .drw x y m) ∨ (∃ x, i = .ldB x ∧ m = 3) ∨
       (∃ x : RegIdx, i = .storeRegs x ∧ m = x.val + 1) ∨
       (∃ x : RegIdx, i = .loadRegs x ∧ m = x.val + 1))) ∨
    (∃ x, f = .keyIndexOutOfRange (s.reg x) ∧ 15 < (s.reg x).toNat ∧
      s.params.keyIndexOor = .fault ∧ (i = .skp x ∨ i = .sknp x)) ∨
    (∃ x, f = .digitOutOfRange (s.reg x) ∧ 15 < (s.reg x).toNat ∧
      s.params.glyphDigitOor = .fault ∧ i = .ldF x)

/-- 60_exceptions.md R230 (spec decision D19): on a fault the host's step leaves every field at its
value before the step and records the kind, the fetch address and the fetched word, which is absent
when the fetch faulted. -/
def Obligations.FaultedStepRollsBackAndRecords : Prop :=
  ∀ (s : State) (f : Fault), step s = .fault f →
    ∃ op : Option Word,
      stepOp s = ({ s with fault := some ⟨f, some s.pc, op⟩ }, .error f) ∧
      (0xFFE < s.pc.toNat → op = none) ∧
      (s.pc.toNat ≤ 0xFFE → ∃ w, op = some w ∧
        w.toNat = (s.memRead s.pc.toNat).toNat * 256 + (s.memRead (s.pc.toNat + 1)).toNat)

/-- From 60_exceptions.md R231: nothing a host does leaves a faulted state. That only the keypad latch
and the dirty flag can change in it is the model's reading, log entry 7: loads and the host's tick are
refused there (70_reset_and_hazards.md R264, 60_exceptions.md R248), and set_key and render are not
(R244, R246). -/
def Obligations.FaultedStateIsTerminal : Prop :=
  ∀ (os : List HostOp) (s : State), s.fault ≠ none →
    session os s = { s with keys := (session os s).keys, dirty := (session os s).dirty } ∧
    step (session os s) = .refused .faultedState

/-! ### Invariants -/

/-- Every step keeps the invariant: memory canonical, at most 16 return addresses, each in
0x002-0x1000, PC at most 0x10FE. -/
def Obligations.StepKeepsInvariant : Prop :=
  ∀ s t : State, s.Inv → step s = .next t → t.Inv

/-- The reset state meets the invariant under every choice of the parameters. -/
def Obligations.ResetMeetsInvariant : Prop :=
  ∀ p : Params, (State.resetWith p).Inv

/-- Every sequence of host operations (60_exceptions.md R240), loads and faulting steps among them,
keeps the invariant. -/
def Obligations.SessionKeepsInvariant : Prop :=
  ∀ (os : List HostOp) (s : State), s.Inv → (session os s).Inv

/-! ### Whole-machine rules -/

/-- 10_state.md R24: PC after a step that does not fault. -/
def Obligations.PcAfterStep : Prop :=
  ∀ (s t : State) (op : Word) (i : Instr),
    fetch s = some op → decodeWord op = some i → step s = .next t →
    match i with
    | .jp nnn | .call nnn => t.pc.toNat = nnn.toNat
    | .ret => s.stack.getLast? = some t.pc
    | .jpV0 nnn => t.pc.toNat = (s.reg 0).toNat + nnn.toNat
    | .seImm _ _ | .sneImm _ _ | .seReg _ _ | .sneReg _ _ | .skp _ | .sknp _ =>
      t.pc = s.pc + 2 ∨ t.pc = s.pc + 4
    | .ldVxK _ =>
      ((∀ k, s.key k = false) → t.pc = s.pc) ∧ ((∃ k, s.key k = true) → t.pc = s.pc + 2)
    | _ => t.pc = s.pc + 2

/-- 10_state.md R21: VF changes only by the seven flag-writing instructions, which leave it 0 or 1,
and as a named destination. -/
def Obligations.VfIsWrittenOnlyAsFlagOrDestination : Prop :=
  ∀ (i : Instr) (s t : State), exec i s = .next t →
    (writesFlag i = true → t.reg 15 = 0 ∨ t.reg 15 = 1) ∧
    (writesFlag i = false → namesDestination i 15 = false → t.reg 15 = s.reg 15)

/-- 10_state.md R21, R22: a general register other than VF changes only where the instruction names
it as its destination, and I only by LD I, LD F and ADD I. -/
def Obligations.RegistersChangeOnlyAsDestinations : Prop :=
  ∀ (i : Instr) (s t : State), exec i s = .next t →
    (∀ r, r ≠ 15 → namesDestination i r = false → t.reg r = s.reg r) ∧
    ((∀ nnn, i ≠ .ldI nnn) → (∀ x, i ≠ .ldF x) → (∀ x, i ≠ .addI x) → t.i = s.i)

/-- 20_memory.md R50 and 10_state.md R27: memory changes only by LD B and LD [I], the stack only by
CALL and RET. -/
def Obligations.MemoryAndStackWriters : Prop :=
  ∀ (i : Instr) (s t : State), exec i s = .next t →
    ((∀ x, i ≠ .ldB x) → (∀ x, i ≠ .storeRegs x) → ∀ a, t.memRead a = s.memRead a) ∧
    ((∀ nnn, i ≠ .call nnn) → i ≠ .ret → t.stack = s.stack)

/-- 10_state.md R31, R32: pixels change only by CLS and DRW; no instruction clears the dirty flag,
and only CLS and DRW set it. -/
def Obligations.DisplayWriters : Prop :=
  ∀ (i : Instr) (s t : State), exec i s = .next t →
    (s.dirty = true → t.dirty = true) ∧
    (i ≠ .cls → (∀ x y n, i ≠ .drw x y n) →
      (∀ px py, t.pixel px py = s.pixel px py) ∧ t.dirty = s.dirty)

/-- 10_state.md R33, R36: a step changes neither the keypad latch nor the fault field. It changes no
parameter: 00_scope.md R9 makes them arguments of the model, and that they stand in a State field is
log entry 1. 44_random.md R161: only RND draws from the random source, one byte per execution. That
the source is a queue with a count of draws is log entry 2. -/
def Obligations.StepKeepsKeysAndDrawsOnlyForRnd : Prop :=
  ∀ (s t : State) (op : Word) (i : Instr),
    fetch s = some op → decodeWord op = some i → step s = .next t →
    t.keys = s.keys ∧ t.fault = s.fault ∧ t.params = s.params ∧
    ((∃ x kk, i = .rnd x kk) → t.rnd.taken = s.rnd.taken + 1 ∧
      t.rnd.supplied = s.rnd.supplied.drop 1) ∧
    ((∀ x kk, i ≠ .rnd x kk) → t.rnd = s.rnd)

/-- 47_timers.md R193, R194 and 70_reset_and_hazards.md R271: with dt and st the timers' values
before the tick (the one just written, for LD DT and LD ST), after a step each timer holds that
value less 1 under PerStep, never below 0, and the value itself under External. -/
def Obligations.TimersCountDownOncePerStep : Prop :=
  ∀ (s t : State) (op : Word) (i : Instr),
    fetch s = some op → decodeWord op = some i → step s = .next t →
    ∀ dt st : Nat,
      (∀ x, i = .ldDtVx x → dt = (s.reg x).toNat) →
      ((∀ x, i ≠ .ldDtVx x) → dt = s.dt.toNat) →
      (∀ x, i = .ldStVx x → st = (s.reg x).toNat) →
      ((∀ x, i ≠ .ldStVx x) → st = s.st.toNat) →
    (s.params.tickSource = .perStep → t.dt.toNat = dt - 1 ∧ t.st.toNat = st - 1) ∧
    (s.params.tickSource = .external → t.dt.toNat = dt ∧ t.st.toNat = st)

/-- 10_state.md R33: an instruction other than SKP, SKNP and LD Vx,K does not read the keypad
latch: under any other latch it answers the same. -/
def Obligations.KeysAreReadOnlyByKeyInstructions : Prop :=
  ∀ (i : Instr) (s : State) (ks : Vector Bool 16),
    (∀ x, i ≠ .skp x) → (∀ x, i ≠ .sknp x) → (∀ x, i ≠ .ldVxK x) →
    (∀ t, exec i s = .next t → exec i { s with keys := ks } = .next { t with keys := ks }) ∧
    (∀ f, exec i s = .fault f → exec i { s with keys := ks } = .fault f)

/-- 10_state.md R32, R34: no instruction reads ST or the dirty flag: under any other values of them
it answers the same but for those two fields. -/
def Obligations.SoundTimerAndDirtyFlagAreNeverRead : Prop :=
  ∀ (i : Instr) (s : State) (st : Byte) (d : Bool),
    (∀ t, exec i s = .next t → ∃ u, exec i { s with st := st, dirty := d } = .next u ∧
      { u with st := t.st, dirty := t.dirty } = t) ∧
    (∀ f, exec i s = .fault f → exec i { s with st := st, dirty := d } = .fault f)

/-! ### Control flow -/

/-- 40_control_flow.md R101. -/
def Obligations.JumpSetsPc : Prop :=
  ∀ (nnn : Addr12) (s : State),
    decodeWord (0x1#4 ++ nnn) = some (.jp nnn) ∧
    ∃ t, exec (.jp nnn) s = .next t ∧ t.pc.toNat = nnn.toNat ∧ Frame { pc := true } s t

/-- 40_control_flow.md R107. -/
def Obligations.IndexedJumpAddsV0 : Prop :=
  ∀ (nnn : Addr12) (s : State),
    decodeWord (0xB#4 ++ nnn) = some (.jpV0 nnn) ∧
    ∃ t, exec (.jpV0 nnn) s = .next t ∧
      t.pc.toNat = (s.reg 0).toNat + nnn.toNat ∧ Frame { pc := true } s t

/-- 40_control_flow.md R102 and 10_state.md R28: CALL appends the PC past it and jumps; with 16
entries held it raises StackOverflow. -/
def Obligations.CallPushesReturnAddress : Prop :=
  ∀ (nnn : Addr12) (s : State),
    decodeWord (0x2#4 ++ nnn) = some (.call nnn) ∧
    (s.stack.length < 16 → ∃ t, exec (.call nnn) s = .next t ∧
      t.stack = s.stack ++ [s.pc] ∧ t.pc.toNat = nnn.toNat ∧
      Frame { pc := true, stack := true } s t) ∧
    (16 ≤ s.stack.length → exec (.call nnn) s = .fault .stackOverflow)

/-- 40_control_flow.md R100 and 10_state.md R29: RET takes the newest entry as PC and removes it;
with an empty stack it raises StackUnderflow. -/
def Obligations.ReturnPopsNewestAddress : Prop :=
  decodeWord 0x00EE = some .ret ∧
  (∀ (s : State) (a : Word) (older : List Word), s.stack = older ++ [a] →
    ∃ t, exec .ret s = .next t ∧ t.pc = a ∧ t.stack = older ∧
      Frame { pc := true, stack := true } s t) ∧
  (∀ s : State, s.stack = [] → exec .ret s = .fault .stackUnderflow)

/-- From 40_control_flow.md R100 and R102: a RET executed with the stack as a CALL left it returns
to the instruction after the CALL and leaves the stack as before the CALL, whatever else changed
in between. -/
def Obligations.ReturnUndoesCall : Prop :=
  ∀ (nnn : Addr12) (s t u : State), exec (.call nnn) s = .next t → u.stack = t.stack →
    ∃ w, exec .ret u = .next w ∧ w.pc = s.pc ∧ w.stack = s.stack

/-- 40_control_flow.md R103, R104, R108: SE and SNE on an immediate. -/
def Obligations.SkipsOnImmediate : Prop :=
  ∀ (x : RegIdx) (kk : Byte) (s : State),
    decodeWord (0x3#4 ++ nibble x ++ kk) = some (.seImm x kk) ∧
    decodeWord (0x4#4 ++ nibble x ++ kk) = some (.sneImm x kk) ∧
    (∃ t, exec (.seImm x kk) s = .next t ∧
      (s.reg x = kk → t.pc = s.pc + 2) ∧ (s.reg x ≠ kk → t.pc = s.pc) ∧
      Frame { pc := true } s t) ∧
    (∃ t, exec (.sneImm x kk) s = .next t ∧
      (s.reg x ≠ kk → t.pc = s.pc + 2) ∧ (s.reg x = kk → t.pc = s.pc) ∧
      Frame { pc := true } s t)

/-- 40_control_flow.md R105, R106, R108: SE and SNE on two registers; any low nibble but 0 is
unknown. -/
def Obligations.SkipsOnRegisters : Prop :=
  ∀ (x y : RegIdx) (s : State),
    decodeWord (0x5#4 ++ nibble x ++ nibble y ++ 0x0#4) = some (.seReg x y) ∧
    decodeWord (0x9#4 ++ nibble x ++ nibble y ++ 0x0#4) = some (.sneReg x y) ∧
    (∀ f : BitVec 4, f ≠ 0 → decodeWord (0x5#4 ++ nibble x ++ nibble y ++ f) = none ∧
      decodeWord (0x9#4 ++ nibble x ++ nibble y ++ f) = none) ∧
    (∃ t, exec (.seReg x y) s = .next t ∧
      (s.reg x = s.reg y → t.pc = s.pc + 2) ∧ (s.reg x ≠ s.reg y → t.pc = s.pc) ∧
      Frame { pc := true } s t) ∧
    (∃ t, exec (.sneReg x y) s = .next t ∧
      (s.reg x ≠ s.reg y → t.pc = s.pc + 2) ∧ (s.reg x = s.reg y → t.pc = s.pc) ∧
      Frame { pc := true } s t)

/-! ### Immediates and the ALU -/

/-- 41_immediate.md R120. -/
def Obligations.LoadImmediateSetsOneRegister : Prop :=
  ∀ (x : RegIdx) (kk : Byte) (s : State),
    decodeWord (0x6#4 ++ nibble x ++ kk) = some (.ldImm x kk) ∧
    ∃ t, exec (.ldImm x kk) s = .next t ∧ t.reg x = kk ∧ Frame { regs := [x] } s t

/-- 41_immediate.md R121: no flag, even on a carry. -/
def Obligations.AddImmediateWraps : Prop :=
  ∀ (x : RegIdx) (kk : Byte) (s : State),
    decodeWord (0x7#4 ++ nibble x ++ kk) = some (.addImm x kk) ∧
    ∃ t, exec (.addImm x kk) s = .next t ∧
      (t.reg x).toNat = ((s.reg x).toNat + kk.toNat) % 256 ∧ Frame { regs := [x] } s t

/-- 42_alu.md R130. -/
def Obligations.CopyRegister : Prop :=
  ∀ (x y : RegIdx) (s : State),
    decodeWord (0x8#4 ++ nibble x ++ nibble y ++ 0x0#4) = some (.ldReg x y) ∧
    ∃ t, exec (.ldReg x y) s = .next t ∧ t.reg x = s.reg y ∧ Frame { regs := [x] } s t

/-- 42_alu.md R131 to R133, bit by bit; VF is not written as a flag (spec decision D10). -/
def Obligations.BitwiseOperations : Prop :=
  ∀ (x y : RegIdx) (s : State),
    (∃ t, exec (.orReg x y) s = .next t ∧ Frame { regs := [x] } s t ∧
      ∀ k, (t.reg x).getLsbD k = ((s.reg x).getLsbD k || (s.reg y).getLsbD k)) ∧
    (∃ t, exec (.andReg x y) s = .next t ∧ Frame { regs := [x] } s t ∧
      ∀ k, (t.reg x).getLsbD k = ((s.reg x).getLsbD k && (s.reg y).getLsbD k)) ∧
    (∃ t, exec (.xorReg x y) s = .next t ∧ Frame { regs := [x] } s t ∧
      ∀ k, (t.reg x).getLsbD k = ((s.reg x).getLsbD k != (s.reg y).getLsbD k))

/-- 42_alu.md R134: with x = F, VF holds the carry. -/
def Obligations.AddSetsCarry : Prop :=
  ∀ (x y : RegIdx) (s : State),
    decodeWord (0x8#4 ++ nibble x ++ nibble y ++ 0x4#4) = some (.addReg x y) ∧
    ∃ t, exec (.addReg x y) s = .next t ∧
      (x ≠ 15 → (t.reg x).toNat = ((s.reg x).toNat + (s.reg y).toNat) % 256) ∧
      (t.reg 15).toNat = (if (s.reg x).toNat + (s.reg y).toNat > 255 then 1 else 0) ∧
      Frame { regs := [x, 15] } s t

/-- 42_alu.md R135: the flag is strict, and with x = F, VF holds the flag. -/
def Obligations.SubSetsNotBorrow : Prop :=
  ∀ (x y : RegIdx) (s : State),
    decodeWord (0x8#4 ++ nibble x ++ nibble y ++ 0x5#4) = some (.sub x y) ∧
    ∃ t, exec (.sub x y) s = .next t ∧
      (x ≠ 15 → ((t.reg x).toNat : Int) = (((s.reg x).toNat : Int) - (s.reg y).toNat) % 256) ∧
      (t.reg 15).toNat = (if (s.reg x).toNat > (s.reg y).toNat then 1 else 0) ∧
      Frame { regs := [x, 15] } s t

/-- 42_alu.md R137. -/
def Obligations.SubnSetsNotBorrow : Prop :=
  ∀ (x y : RegIdx) (s : State),
    decodeWord (0x8#4 ++ nibble x ++ nibble y ++ 0x7#4) = some (.subn x y) ∧
    ∃ t, exec (.subn x y) s = .next t ∧
      (x ≠ 15 → ((t.reg x).toNat : Int) = (((s.reg y).toNat : Int) - (s.reg x).toNat) % 256) ∧
      (t.reg 15).toNat = (if (s.reg y).toNat > (s.reg x).toNat then 1 else 0) ∧
      Frame { regs := [x, 15] } s t

/-- 42_alu.md R136, R138 (that V[x], not V[y], is shifted is the spec's decision D9): one shift
right and one shift left, with the bit shifted out in VF. -/
def Obligations.ShiftsMoveOneBitOut : Prop :=
  ∀ (x y : RegIdx) (s : State),
    (∃ t, exec (.shr x y) s = .next t ∧ Frame { regs := [x, 15] } s t ∧
      (x ≠ 15 → (t.reg x).toNat = (s.reg x).toNat / 2) ∧
      (t.reg 15).toNat = (s.reg x).toNat % 2) ∧
    (∃ t, exec (.shl x y) s = .next t ∧ Frame { regs := [x, 15] } s t ∧
      (x ≠ 15 → (t.reg x).toNat = (s.reg x).toNat * 2 % 256) ∧
      (t.reg 15).toNat = (s.reg x).toNat / 128)

/-! ### Index register and random -/

/-- 43_index.md R150. -/
def Obligations.LoadIndexSetsAddress : Prop :=
  ∀ (nnn : Addr12) (s : State),
    decodeWord (0xA#4 ++ nnn) = some (.ldI nnn) ∧
    ∃ t, exec (.ldI nnn) s = .next t ∧ t.i.toNat = nnn.toNat ∧ Frame { index := true } s t

/-- 43_index.md R151 under every value of GLYPH_DIGIT_OOR (spec decision D12). -/
def Obligations.GlyphAddressOfDigit : Prop :=
  ∀ (x : RegIdx) (s : State),
    ((s.reg x).toNat ≤ 15 ∨ s.params.glyphDigitOor = .unmasked →
      ∃ t, exec (.ldF x) s = .next t ∧ Frame { index := true } s t ∧
        t.i.toNat = 0x50 + 5 * (s.reg x).toNat) ∧
    (15 < (s.reg x).toNat → s.params.glyphDigitOor = .lowNibble →
      ∃ t, exec (.ldF x) s = .next t ∧ Frame { index := true } s t ∧
        t.i.toNat = 0x50 + 5 * ((s.reg x).toNat % 16)) ∧
    (15 < (s.reg x).toNat → s.params.glyphDigitOor = .fault →
      exec (.ldF x) s = .fault (.digitOutOfRange (s.reg x)))

/-- 43_index.md R152 (the 16-bit wrap is the spec's decision D7): VF is 1 iff the new I exceeds
255. -/
def Obligations.AddIndexFlagsAbove255 : Prop :=
  ∀ (x : RegIdx) (s : State),
    ∃ t, exec (.addI x) s = .next t ∧
      t.i.toNat = (s.i.toNat + (s.reg x).toNat) % 65536 ∧
      (t.reg 15).toNat = (if t.i.toNat > 255 then 1 else 0) ∧
      Frame { regs := [15], index := true } s t

/-- 44_random.md R160 (a draw, spec decision D16): V[x] is one drawn byte under the mask, for every
byte the source supplies, and for the free value (log entry 2) where none was supplied. -/
def Obligations.RandomByteIsMasked : Prop :=
  ∀ (x : RegIdx) (kk : Byte) (s : State),
    ∃ (t : State) (r : Byte), exec (.rnd x kk) s = .next t ∧ t.reg x = r &&& kk ∧
      (∀ (b : Byte) (later : List Byte), s.rnd.supplied = b :: later →
        r = b ∧ t.rnd.supplied = later) ∧
      t.rnd.taken = s.rnd.taken + 1 ∧ Frame { regs := [x], rnd := true } s t

/-! ### Draw and clear -/

/-- 45_draw.md R165 to R169 (bit order: spec decision D15; operand order and dirty flag: D14): DRW
inverts exactly the pixels its sprite covers, sets VF iff one of them was 1, and marks the display
dirty iff one is covered; the coordinates are those before VF is reset. -/
def Obligations.DrawInvertsCoveredPixels : Prop :=
  ∀ (x y : RegIdx) (n : Nat) (s : State), (Instr.drw x y n).wellFormed = true →
    (n = 0 ∨ s.i.toNat + n - 1 ≤ 0xFFF) →
    ∃ t, exec (.drw x y n) s = .next t ∧
      (∀ px py, spriteCovers s x y n px py → t.pixel px py = !s.pixel px py) ∧
      (∀ px py, ¬ spriteCovers s x y n px py → t.pixel px py = s.pixel px py) ∧
      ((∃ px py, spriteCovers s x y n px py ∧ s.pixel px py = true) → t.reg 15 = 1) ∧
      ((∀ px py, spriteCovers s x y n px py → s.pixel px py = false) → t.reg 15 = 0) ∧
      (t.dirty = true ↔ s.dirty = true ∨ ∃ px py, spriteCovers s x y n px py) ∧
      Frame { regs := [15], display := true } s t

/-- 45_draw.md R165 and 20_memory.md R58 (spec decision D25): a sprite beyond 0xFFF faults with the
first address and the length. -/
def Obligations.DrawBeyondMemoryFaults : Prop :=
  ∀ (x y : RegIdx) (n : Nat) (s : State), 1 ≤ n → 0xFFF < s.i.toNat + n - 1 →
    exec (.drw x y n) s = .fault (.addressOutOfRange s.i.toNat n)

/-- From 45_draw.md R165: the same sprite drawn twice leaves every pixel as it was, and the second
draw reports a collision iff the sprite covers a pixel that was 0 before the first. Coordinates in
VF are not the same twice, so x and y are not F. -/
def Obligations.DrawTwiceRestoresPixels : Prop :=
  ∀ (x y : RegIdx) (n : Nat) (s t : State), (Instr.drw x y n).wellFormed = true →
    x ≠ 15 → y ≠ 15 → exec (.drw x y n) s = .next t →
    ∃ u, exec (.drw x y n) t = .next u ∧ (∀ px py, u.pixel px py = s.pixel px py) ∧
      (u.reg 15 = 1 ↔ ∃ px py, spriteCovers s x y n px py ∧ s.pixel px py = false)

/-- 49_clear.md R210. -/
def Obligations.ClearBlanksAndMarksDirty : Prop :=
  decodeWord 0x00E0 = some .cls ∧
  ∀ s : State, ∃ t, exec .cls s = .next t ∧
    (∀ px py, t.pixel px py = false) ∧ t.dirty = true ∧ Frame { display := true } s t

/-! ### Keys and timers -/

/-- 46_keys.md R180, R181, R183 under both values of KEY_INDEX_OOR (spec decision D11): the key
tested is V[x], or V[x] mod 16 under LowNibble; SKP skips when it is pressed and SKNP when it is
not; under Fault a larger V[x] faults. -/
def Obligations.KeySkips : Prop :=
  ∀ (x : RegIdx) (s : State),
    (∀ k : Fin 16, k.val = (s.reg x).toNat % 16 →
      ((s.reg x).toNat ≤ 15 ∨ s.params.keyIndexOor = .lowNibble) →
      (∃ t, exec (.skp x) s = .next t ∧ Frame { pc := true } s t ∧
        (s.key k = true → t.pc = s.pc + 2) ∧ (s.key k = false → t.pc = s.pc)) ∧
      (∃ t, exec (.sknp x) s = .next t ∧ Frame { pc := true } s t ∧
        (s.key k = false → t.pc = s.pc + 2) ∧ (s.key k = true → t.pc = s.pc))) ∧
    (15 < (s.reg x).toNat → s.params.keyIndexOor = .fault →
      exec (.skp x) s = .fault (.keyIndexOutOfRange (s.reg x)) ∧
      exec (.sknp x) s = .fault (.keyIndexOutOfRange (s.reg x)))

/-- 46_keys.md R182 (which of several keys is the spec's decision D13; AnyPressed draws a free
value, log entry 3): with no key pressed PC goes back to the instruction and nothing else changes;
else the index of a pressed key is stored, the lowest one under Lowest. -/
def Obligations.KeyWaitStoresPressedKey : Prop :=
  ∀ (x : RegIdx) (s : State),
    ((∀ k, s.key k = false) →
      ∃ t, exec (.ldVxK x) s = .next t ∧ t.pc = s.pc - 2 ∧ Frame { pc := true } s t) ∧
    ((∃ k, s.key k = true) →
      ∃ (t : State) (k : Fin 16), exec (.ldVxK x) s = .next t ∧ s.key k = true ∧
        (t.reg x).toNat = k.val ∧
        (s.params.keyWaitChoice = .lowest →
          (∀ j, j < k → s.key j = false) ∧ t.keyPick = s.keyPick) ∧
        Frame { regs := [x], keyPick := true } s t)

/-- 47_timers.md R190, R191, R192: the transfer itself, and what the tick that ends the step under
PerStep (R193) then leaves in the timer written, which the spec derives from R193. -/
def Obligations.TimerTransfers : Prop :=
  ∀ (x : RegIdx) (s : State),
    decodeWord (0xF#4 ++ nibble x ++ 0x07#8) = some (.ldVxDt x) ∧
    decodeWord (0xF#4 ++ nibble x ++ 0x15#8) = some (.ldDtVx x) ∧
    decodeWord (0xF#4 ++ nibble x ++ 0x18#8) = some (.ldStVx x) ∧
    (∃ t, exec (.ldVxDt x) s = .next t ∧ t.reg x = s.dt ∧ Frame { regs := [x] } s t) ∧
    (∃ t, exec (.ldDtVx x) s = .next t ∧ t.dt = s.reg x ∧
      t.tick.dt.toNat = (s.reg x).toNat - 1 ∧ Frame { dt := true } s t) ∧
    (∃ t, exec (.ldStVx x) s = .next t ∧ t.st = s.reg x ∧
      t.tick.st.toNat = (s.reg x).toNat - 1 ∧ Frame { st := true } s t)

/-! ### BCD and block transfer -/

/-- 48_bcd_block.md R200. -/
def Obligations.BcdStoresThreeDigits : Prop :=
  ∀ (x : RegIdx) (s : State),
    decodeWord (0xF#4 ++ nibble x ++ 0x33#8) = some (.ldB x) ∧
    (s.i.toNat + 2 ≤ 0xFFF → ∃ t, exec (.ldB x) s = .next t ∧
      (t.memRead s.i.toNat).toNat = (s.reg x).toNat / 100 ∧
      (t.memRead (s.i.toNat + 1)).toNat = (s.reg x).toNat / 10 % 10 ∧
      (t.memRead (s.i.toNat + 2)).toNat = (s.reg x).toNat % 10 ∧
      Frame { storeFrom := s.i.toNat, storeLen := 3 } s t) ∧
    (0xFFF < s.i.toNat + 2 → exec (.ldB x) s = .fault (.addressOutOfRange s.i.toNat 3))

/-- 48_bcd_block.md R201. -/
def Obligations.BlockStoreWritesV0ToVx : Prop :=
  ∀ (x : RegIdx) (s : State),
    decodeWord (0xF#4 ++ nibble x ++ 0x55#8) = some (.storeRegs x) ∧
    (s.i.toNat + x.val ≤ 0xFFF → ∃ t, exec (.storeRegs x) s = .next t ∧
      (∀ r : RegIdx, r ≤ x → t.memRead (s.i.toNat + r.val) = s.reg r) ∧
      Frame { storeFrom := s.i.toNat, storeLen := x.val + 1 } s t) ∧
    (0xFFF < s.i.toNat + x.val →
      exec (.storeRegs x) s = .fault (.addressOutOfRange s.i.toNat (x.val + 1)))

/-- 48_bcd_block.md R202: registers above x are unchanged, and x = F loads VF. -/
def Obligations.BlockLoadReadsV0ToVx : Prop :=
  ∀ (x : RegIdx) (s : State),
    decodeWord (0xF#4 ++ nibble x ++ 0x65#8) = some (.loadRegs x) ∧
    (s.i.toNat + x.val ≤ 0xFFF → ∃ t, exec (.loadRegs x) s = .next t ∧
      (∀ r : RegIdx, r ≤ x → t.reg r = s.memRead (s.i.toNat + r.val)) ∧
      Frame { regs := (List.finRange 16).filter (· ≤ x) } s t) ∧
    (0xFFF < s.i.toNat + x.val →
      exec (.loadRegs x) s = .fault (.addressOutOfRange s.i.toNat (x.val + 1)))

/-- From 48_bcd_block.md R201 and R202: loading back what was stored, from the same I and memory,
restores V0..Vx whatever the registers held in between. -/
def Obligations.BlockLoadUndoesBlockStore : Prop :=
  ∀ (x : RegIdx) (s t u : State), exec (.storeRegs x) s = .next t →
    u.i = t.i → u.mem = t.mem →
    ∃ w, exec (.loadRegs x) u = .next w ∧ ∀ r : RegIdx, r ≤ x → w.reg r = s.reg r

/-- 20_memory.md R65: the next fetch sees a word that LD [I],Vx stores at PC, big-endian. -/
def Obligations.StoredWordIsFetched : Prop :=
  ∀ (x : RegIdx) (s t : State), exec (.storeRegs x) s = .next t → 1 ≤ x.val → s.i = s.pc →
    ∃ op, fetch t = some op ∧ op.toNat = (s.reg 0).toNat * 256 + (s.reg 1).toNat

/-! ### Host operations -/

/-- 70_reset_and_hazards.md R262: at most 3584 bytes are written from 0x200 and nothing else
changes; a longer program is refused with ProgramTooLarge and writes nothing; and the word fetched at
0x200 is then the first two bytes, big-endian. -/
def Obligations.ProgramLoadWritesItsBytes : Prop :=
  ∀ (s : State) (bytes : List Byte), s.fault = none →
    (bytes.length ≤ 3584 → ∃ t, loadProgram s bytes = (t, .ok) ∧
      (∀ k b, bytes[k]? = some b → t.memRead (0x200 + k) = b) ∧
      Frame { storeFrom := 0x200, storeLen := bytes.length } s t ∧
      (∀ (b0 b1 : Byte) (rest : List Byte), bytes = b0 :: b1 :: rest →
        ∃ op, fetch (t.setPc 0x200) = some op ∧ op.toNat = b0.toNat * 256 + b1.toNat)) ∧
    (3584 < bytes.length → ∃ t,
      loadProgram s bytes = (t, .error (.programTooLarge bytes.length)) ∧
      { t with fault := none } = s)

/-- 70_reset_and_hazards.md R263: exactly 80 bytes are written from 0x050 and nothing else changes;
any other length is refused with GlyphTableSizeMismatch and writes nothing. -/
def Obligations.GlyphLoadWritesItsBytes : Prop :=
  ∀ (s : State) (bytes : List Byte), s.fault = none →
    (bytes.length = 80 → ∃ t, loadGlyphTable s bytes = (t, .ok) ∧
      (∀ k b, bytes[k]? = some b → t.memRead (0x50 + k) = b) ∧
      Frame { storeFrom := 0x50, storeLen := 80 } s t) ∧
    (bytes.length ≠ 80 → ∃ t,
      loadGlyphTable s bytes = (t, .error (.glyphTableSizeMismatch bytes.length)) ∧
      { t with fault := none } = s)

/-- 60_exceptions.md R232 (spec decision D19): a load-time fault is recorded with its length and no
address or word; in a faulted state a load is refused (70_reset_and_hazards.md R264, D24). -/
def Obligations.LoadFaultsAreRecorded : Prop :=
  ∀ (s : State) (bytes : List Byte),
    (s.fault = none → 3584 < bytes.length →
      (loadProgram s bytes).1.fault = some ⟨.programTooLarge bytes.length, none, none⟩) ∧
    (s.fault = none → bytes.length ≠ 80 →
      (loadGlyphTable s bytes).1.fault =
        some ⟨.glyphTableSizeMismatch bytes.length, none, none⟩) ∧
    (s.fault ≠ none → loadProgram s bytes = (s, .refused .faultedState) ∧
      loadGlyphTable s bytes = (s, .refused .faultedState))

/-- 60_exceptions.md R246 (the buffer's layout and the off pixel are the spec's decision D23): the
four bytes at (y * 64 + x) * 4 are those of pixel (x, y), and only the dirty flag is cleared. -/
def Obligations.RenderShowsEveryPixel : Prop :=
  ∀ s : State, ∃ buf : List Byte, buf.length = 8192 ∧
    hostOp .render s = ({ s with dirty := false }, .buffer buf) ∧
    ∀ (px : Fin 64) (py : Fin 32) (c : Fin 4),
      buf[(py.val * 64 + px.val) * 4 + c.val]? =
        some (if s.pixel px py then 0xFF else s.params.offPixel[c])

/-- 60_exceptions.md R244, R245, R247, R248 (spec decisions D26, D27, D18): set_key writes one key
and nothing else; display_dirty and read_sound change nothing; the host's tick acts under External
only. -/
def Obligations.HostReadsAndKeyWrites : Prop :=
  ∀ (s : State) (k : Fin 16) (b : Bool),
    (∃ t, hostOp (.setKey k b) s = (t, .ok) ∧ t.key k = b ∧
      (∀ j, j ≠ k → t.key j = s.key j) ∧ { t with keys := s.keys } = s) ∧
    hostOp .displayDirty s = (s, .dirty s.dirty) ∧
    hostOp .readSound s = (s, .sound s.st) ∧
    (s.params.tickSource = .external → s.fault = none →
      ∃ t, hostOp .tick s = (t, .ok) ∧ t.dt.toNat = s.dt.toNat - 1 ∧ t.st.toNat = s.st.toNat - 1 ∧
        Frame { dt := true, st := true } s t) ∧
    (s.params.tickSource = .perStep → hostOp .tick s = (s, .refused .tickIsPerStep))
end

