-- ==== Sys2Proof/Laws/State.lean ====
section
/-! SUPPORT. What each update of the state does to each field: one lemma per field per update. -/

namespace Sys2Proof.Machine

variable (s : State)

/-! ### setReg -/

@[simp] theorem State.setReg_v (x : RegIdx) (b : Byte) : (s.setReg x b).v = s.v.set x b := rfl
@[simp] theorem State.setReg_i (x : RegIdx) (b : Byte) : (s.setReg x b).i = s.i := rfl
@[simp] theorem State.setReg_pc (x : RegIdx) (b : Byte) : (s.setReg x b).pc = s.pc := rfl
@[simp] theorem State.setReg_dt (x : RegIdx) (b : Byte) : (s.setReg x b).dt = s.dt := rfl
@[simp] theorem State.setReg_st (x : RegIdx) (b : Byte) : (s.setReg x b).st = s.st := rfl
@[simp] theorem State.setReg_mem (x : RegIdx) (b : Byte) : (s.setReg x b).mem = s.mem := rfl
@[simp] theorem State.setReg_stack (x : RegIdx) (b : Byte) : (s.setReg x b).stack = s.stack := rfl
@[simp] theorem State.setReg_disp (x : RegIdx) (b : Byte) : (s.setReg x b).disp = s.disp := rfl
@[simp] theorem State.setReg_dirty (x : RegIdx) (b : Byte) : (s.setReg x b).dirty = s.dirty := rfl
@[simp] theorem State.setReg_keys (x : RegIdx) (b : Byte) : (s.setReg x b).keys = s.keys := rfl
@[simp] theorem State.setReg_fault (x : RegIdx) (b : Byte) : (s.setReg x b).fault = s.fault := rfl
@[simp] theorem State.setReg_params (x : RegIdx) (b : Byte) : (s.setReg x b).params = s.params := rfl
@[simp] theorem State.setReg_rnd (x : RegIdx) (b : Byte) : (s.setReg x b).rnd = s.rnd := rfl
@[simp] theorem State.setReg_keyPick (x : RegIdx) (b : Byte) : (s.setReg x b).keyPick = s.keyPick := rfl

/-! ### setFlag -/

@[simp] theorem State.setFlag_v (b : Byte) : (s.setFlag b).v = s.v.set VF b := rfl
@[simp] theorem State.setFlag_i (b : Byte) : (s.setFlag b).i = s.i := rfl
@[simp] theorem State.setFlag_pc (b : Byte) : (s.setFlag b).pc = s.pc := rfl
@[simp] theorem State.setFlag_dt (b : Byte) : (s.setFlag b).dt = s.dt := rfl
@[simp] theorem State.setFlag_st (b : Byte) : (s.setFlag b).st = s.st := rfl
@[simp] theorem State.setFlag_mem (b : Byte) : (s.setFlag b).mem = s.mem := rfl
@[simp] theorem State.setFlag_stack (b : Byte) : (s.setFlag b).stack = s.stack := rfl
@[simp] theorem State.setFlag_disp (b : Byte) : (s.setFlag b).disp = s.disp := rfl
@[simp] theorem State.setFlag_dirty (b : Byte) : (s.setFlag b).dirty = s.dirty := rfl
@[simp] theorem State.setFlag_keys (b : Byte) : (s.setFlag b).keys = s.keys := rfl
@[simp] theorem State.setFlag_fault (b : Byte) : (s.setFlag b).fault = s.fault := rfl
@[simp] theorem State.setFlag_params (b : Byte) : (s.setFlag b).params = s.params := rfl
@[simp] theorem State.setFlag_rnd (b : Byte) : (s.setFlag b).rnd = s.rnd := rfl
@[simp] theorem State.setFlag_keyPick (b : Byte) : (s.setFlag b).keyPick = s.keyPick := rfl

/-! ### setResultFlag -/

@[simp] theorem State.setResultFlag_i (x : RegIdx) (b f : Byte) : (s.setResultFlag x b f).i = s.i := rfl
@[simp] theorem State.setResultFlag_pc (x : RegIdx) (b f : Byte) : (s.setResultFlag x b f).pc = s.pc := rfl
@[simp] theorem State.setResultFlag_dt (x : RegIdx) (b f : Byte) : (s.setResultFlag x b f).dt = s.dt := rfl
@[simp] theorem State.setResultFlag_st (x : RegIdx) (b f : Byte) : (s.setResultFlag x b f).st = s.st := rfl
@[simp] theorem State.setResultFlag_mem (x : RegIdx) (b f : Byte) : (s.setResultFlag x b f).mem = s.mem := rfl
@[simp] theorem State.setResultFlag_stack (x : RegIdx) (b f : Byte) : (s.setResultFlag x b f).stack = s.stack := rfl
@[simp] theorem State.setResultFlag_disp (x : RegIdx) (b f : Byte) : (s.setResultFlag x b f).disp = s.disp := rfl
@[simp] theorem State.setResultFlag_dirty (x : RegIdx) (b f : Byte) : (s.setResultFlag x b f).dirty = s.dirty := rfl
@[simp] theorem State.setResultFlag_keys (x : RegIdx) (b f : Byte) : (s.setResultFlag x b f).keys = s.keys := rfl
@[simp] theorem State.setResultFlag_fault (x : RegIdx) (b f : Byte) : (s.setResultFlag x b f).fault = s.fault := rfl
@[simp] theorem State.setResultFlag_params (x : RegIdx) (b f : Byte) : (s.setResultFlag x b f).params = s.params := rfl
@[simp] theorem State.setResultFlag_rnd (x : RegIdx) (b f : Byte) : (s.setResultFlag x b f).rnd = s.rnd := rfl
@[simp] theorem State.setResultFlag_keyPick (x : RegIdx) (b f : Byte) : (s.setResultFlag x b f).keyPick = s.keyPick := rfl

/-! ### setIndex -/

@[simp] theorem State.setIndex_v (w : Word) : (s.setIndex w).v = s.v := rfl
@[simp] theorem State.setIndex_i (w : Word) : (s.setIndex w).i = w := rfl
@[simp] theorem State.setIndex_pc (w : Word) : (s.setIndex w).pc = s.pc := rfl
@[simp] theorem State.setIndex_dt (w : Word) : (s.setIndex w).dt = s.dt := rfl
@[simp] theorem State.setIndex_st (w : Word) : (s.setIndex w).st = s.st := rfl
@[simp] theorem State.setIndex_mem (w : Word) : (s.setIndex w).mem = s.mem := rfl
@[simp] theorem State.setIndex_stack (w : Word) : (s.setIndex w).stack = s.stack := rfl
@[simp] theorem State.setIndex_disp (w : Word) : (s.setIndex w).disp = s.disp := rfl
@[simp] theorem State.setIndex_dirty (w : Word) : (s.setIndex w).dirty = s.dirty := rfl
@[simp] theorem State.setIndex_keys (w : Word) : (s.setIndex w).keys = s.keys := rfl
@[simp] theorem State.setIndex_fault (w : Word) : (s.setIndex w).fault = s.fault := rfl
@[simp] theorem State.setIndex_params (w : Word) : (s.setIndex w).params = s.params := rfl
@[simp] theorem State.setIndex_rnd (w : Word) : (s.setIndex w).rnd = s.rnd := rfl
@[simp] theorem State.setIndex_keyPick (w : Word) : (s.setIndex w).keyPick = s.keyPick := rfl

/-! ### setPc -/

@[simp] theorem State.setPc_v (w : Word) : (s.setPc w).v = s.v := rfl
@[simp] theorem State.setPc_i (w : Word) : (s.setPc w).i = s.i := rfl
@[simp] theorem State.setPc_pc (w : Word) : (s.setPc w).pc = w := rfl
@[simp] theorem State.setPc_dt (w : Word) : (s.setPc w).dt = s.dt := rfl
@[simp] theorem State.setPc_st (w : Word) : (s.setPc w).st = s.st := rfl
@[simp] theorem State.setPc_mem (w : Word) : (s.setPc w).mem = s.mem := rfl
@[simp] theorem State.setPc_stack (w : Word) : (s.setPc w).stack = s.stack := rfl
@[simp] theorem State.setPc_disp (w : Word) : (s.setPc w).disp = s.disp := rfl
@[simp] theorem State.setPc_dirty (w : Word) : (s.setPc w).dirty = s.dirty := rfl
@[simp] theorem State.setPc_keys (w : Word) : (s.setPc w).keys = s.keys := rfl
@[simp] theorem State.setPc_fault (w : Word) : (s.setPc w).fault = s.fault := rfl
@[simp] theorem State.setPc_params (w : Word) : (s.setPc w).params = s.params := rfl
@[simp] theorem State.setPc_rnd (w : Word) : (s.setPc w).rnd = s.rnd := rfl
@[simp] theorem State.setPc_keyPick (w : Word) : (s.setPc w).keyPick = s.keyPick := rfl

/-! ### advancePc -/

@[simp] theorem State.advancePc_v : (s.advancePc).v = s.v := rfl
@[simp] theorem State.advancePc_i : (s.advancePc).i = s.i := rfl
@[simp] theorem State.advancePc_pc : (s.advancePc).pc = s.pc + 2 := rfl
@[simp] theorem State.advancePc_dt : (s.advancePc).dt = s.dt := rfl
@[simp] theorem State.advancePc_st : (s.advancePc).st = s.st := rfl
@[simp] theorem State.advancePc_mem : (s.advancePc).mem = s.mem := rfl
@[simp] theorem State.advancePc_stack : (s.advancePc).stack = s.stack := rfl
@[simp] theorem State.advancePc_disp : (s.advancePc).disp = s.disp := rfl
@[simp] theorem State.advancePc_dirty : (s.advancePc).dirty = s.dirty := rfl
@[simp] theorem State.advancePc_keys : (s.advancePc).keys = s.keys := rfl
@[simp] theorem State.advancePc_fault : (s.advancePc).fault = s.fault := rfl
@[simp] theorem State.advancePc_params : (s.advancePc).params = s.params := rfl
@[simp] theorem State.advancePc_rnd : (s.advancePc).rnd = s.rnd := rfl
@[simp] theorem State.advancePc_keyPick : (s.advancePc).keyPick = s.keyPick := rfl

/-! ### setDt -/

@[simp] theorem State.setDt_v (b : Byte) : (s.setDt b).v = s.v := rfl
@[simp] theorem State.setDt_i (b : Byte) : (s.setDt b).i = s.i := rfl
@[simp] theorem State.setDt_pc (b : Byte) : (s.setDt b).pc = s.pc := rfl
@[simp] theorem State.setDt_dt (b : Byte) : (s.setDt b).dt = b := rfl
@[simp] theorem State.setDt_st (b : Byte) : (s.setDt b).st = s.st := rfl
@[simp] theorem State.setDt_mem (b : Byte) : (s.setDt b).mem = s.mem := rfl
@[simp] theorem State.setDt_stack (b : Byte) : (s.setDt b).stack = s.stack := rfl
@[simp] theorem State.setDt_disp (b : Byte) : (s.setDt b).disp = s.disp := rfl
@[simp] theorem State.setDt_dirty (b : Byte) : (s.setDt b).dirty = s.dirty := rfl
@[simp] theorem State.setDt_keys (b : Byte) : (s.setDt b).keys = s.keys := rfl
@[simp] theorem State.setDt_fault (b : Byte) : (s.setDt b).fault = s.fault := rfl
@[simp] theorem State.setDt_params (b : Byte) : (s.setDt b).params = s.params := rfl
@[simp] theorem State.setDt_rnd (b : Byte) : (s.setDt b).rnd = s.rnd := rfl
@[simp] theorem State.setDt_keyPick (b : Byte) : (s.setDt b).keyPick = s.keyPick := rfl

/-! ### setSt -/

@[simp] theorem State.setSt_v (b : Byte) : (s.setSt b).v = s.v := rfl
@[simp] theorem State.setSt_i (b : Byte) : (s.setSt b).i = s.i := rfl
@[simp] theorem State.setSt_pc (b : Byte) : (s.setSt b).pc = s.pc := rfl
@[simp] theorem State.setSt_dt (b : Byte) : (s.setSt b).dt = s.dt := rfl
@[simp] theorem State.setSt_st (b : Byte) : (s.setSt b).st = b := rfl
@[simp] theorem State.setSt_mem (b : Byte) : (s.setSt b).mem = s.mem := rfl
@[simp] theorem State.setSt_stack (b : Byte) : (s.setSt b).stack = s.stack := rfl
@[simp] theorem State.setSt_disp (b : Byte) : (s.setSt b).disp = s.disp := rfl
@[simp] theorem State.setSt_dirty (b : Byte) : (s.setSt b).dirty = s.dirty := rfl
@[simp] theorem State.setSt_keys (b : Byte) : (s.setSt b).keys = s.keys := rfl
@[simp] theorem State.setSt_fault (b : Byte) : (s.setSt b).fault = s.fault := rfl
@[simp] theorem State.setSt_params (b : Byte) : (s.setSt b).params = s.params := rfl
@[simp] theorem State.setSt_rnd (b : Byte) : (s.setSt b).rnd = s.rnd := rfl
@[simp] theorem State.setSt_keyPick (b : Byte) : (s.setSt b).keyPick = s.keyPick := rfl

/-! ### memWrite -/

@[simp] theorem State.memWrite_v (a : Nat) (b : Byte) : (s.memWrite a b).v = s.v := rfl
@[simp] theorem State.memWrite_i (a : Nat) (b : Byte) : (s.memWrite a b).i = s.i := rfl
@[simp] theorem State.memWrite_pc (a : Nat) (b : Byte) : (s.memWrite a b).pc = s.pc := rfl
@[simp] theorem State.memWrite_dt (a : Nat) (b : Byte) : (s.memWrite a b).dt = s.dt := rfl
@[simp] theorem State.memWrite_st (a : Nat) (b : Byte) : (s.memWrite a b).st = s.st := rfl
@[simp] theorem State.memWrite_mem (a : Nat) (b : Byte) : (s.memWrite a b).mem = s.mem.write a b := rfl
@[simp] theorem State.memWrite_stack (a : Nat) (b : Byte) : (s.memWrite a b).stack = s.stack := rfl
@[simp] theorem State.memWrite_disp (a : Nat) (b : Byte) : (s.memWrite a b).disp = s.disp := rfl
@[simp] theorem State.memWrite_dirty (a : Nat) (b : Byte) : (s.memWrite a b).dirty = s.dirty := rfl
@[simp] theorem State.memWrite_keys (a : Nat) (b : Byte) : (s.memWrite a b).keys = s.keys := rfl
@[simp] theorem State.memWrite_fault (a : Nat) (b : Byte) : (s.memWrite a b).fault = s.fault := rfl
@[simp] theorem State.memWrite_params (a : Nat) (b : Byte) : (s.memWrite a b).params = s.params := rfl
@[simp] theorem State.memWrite_rnd (a : Nat) (b : Byte) : (s.memWrite a b).rnd = s.rnd := rfl
@[simp] theorem State.memWrite_keyPick (a : Nat) (b : Byte) : (s.memWrite a b).keyPick = s.keyPick := rfl

/-! ### setStack -/

@[simp] theorem State.setStack_v (st : List Word) : (s.setStack st).v = s.v := rfl
@[simp] theorem State.setStack_i (st : List Word) : (s.setStack st).i = s.i := rfl
@[simp] theorem State.setStack_pc (st : List Word) : (s.setStack st).pc = s.pc := rfl
@[simp] theorem State.setStack_dt (st : List Word) : (s.setStack st).dt = s.dt := rfl
@[simp] theorem State.setStack_st (st : List Word) : (s.setStack st).st = s.st := rfl
@[simp] theorem State.setStack_mem (st : List Word) : (s.setStack st).mem = s.mem := rfl
@[simp] theorem State.setStack_stack (st : List Word) : (s.setStack st).stack = st := rfl
@[simp] theorem State.setStack_disp (st : List Word) : (s.setStack st).disp = s.disp := rfl
@[simp] theorem State.setStack_dirty (st : List Word) : (s.setStack st).dirty = s.dirty := rfl
@[simp] theorem State.setStack_keys (st : List Word) : (s.setStack st).keys = s.keys := rfl
@[simp] theorem State.setStack_fault (st : List Word) : (s.setStack st).fault = s.fault := rfl
@[simp] theorem State.setStack_params (st : List Word) : (s.setStack st).params = s.params := rfl
@[simp] theorem State.setStack_rnd (st : List Word) : (s.setStack st).rnd = s.rnd := rfl
@[simp] theorem State.setStack_keyPick (st : List Word) : (s.setStack st).keyPick = s.keyPick := rfl

/-! ### writePixel -/

@[simp] theorem State.writePixel_v (px : Fin 64) (py : Fin 32) (b : Bool) : (s.writePixel px py b).v = s.v := rfl
@[simp] theorem State.writePixel_i (px : Fin 64) (py : Fin 32) (b : Bool) : (s.writePixel px py b).i = s.i := rfl
@[simp] theorem State.writePixel_pc (px : Fin 64) (py : Fin 32) (b : Bool) : (s.writePixel px py b).pc = s.pc := rfl
@[simp] theorem State.writePixel_dt (px : Fin 64) (py : Fin 32) (b : Bool) : (s.writePixel px py b).dt = s.dt := rfl
@[simp] theorem State.writePixel_st (px : Fin 64) (py : Fin 32) (b : Bool) : (s.writePixel px py b).st = s.st := rfl
@[simp] theorem State.writePixel_mem (px : Fin 64) (py : Fin 32) (b : Bool) : (s.writePixel px py b).mem = s.mem := rfl
@[simp] theorem State.writePixel_stack (px : Fin 64) (py : Fin 32) (b : Bool) : (s.writePixel px py b).stack = s.stack := rfl
@[simp] theorem State.writePixel_dirty (px : Fin 64) (py : Fin 32) (b : Bool) : (s.writePixel px py b).dirty = true := rfl
@[simp] theorem State.writePixel_keys (px : Fin 64) (py : Fin 32) (b : Bool) : (s.writePixel px py b).keys = s.keys := rfl
@[simp] theorem State.writePixel_fault (px : Fin 64) (py : Fin 32) (b : Bool) : (s.writePixel px py b).fault = s.fault := rfl
@[simp] theorem State.writePixel_params (px : Fin 64) (py : Fin 32) (b : Bool) : (s.writePixel px py b).params = s.params := rfl
@[simp] theorem State.writePixel_rnd (px : Fin 64) (py : Fin 32) (b : Bool) : (s.writePixel px py b).rnd = s.rnd := rfl
@[simp] theorem State.writePixel_keyPick (px : Fin 64) (py : Fin 32) (b : Bool) : (s.writePixel px py b).keyPick = s.keyPick := rfl

/-! ### clearDisplay -/

@[simp] theorem State.clearDisplay_v : (s.clearDisplay).v = s.v := rfl
@[simp] theorem State.clearDisplay_i : (s.clearDisplay).i = s.i := rfl
@[simp] theorem State.clearDisplay_pc : (s.clearDisplay).pc = s.pc := rfl
@[simp] theorem State.clearDisplay_dt : (s.clearDisplay).dt = s.dt := rfl
@[simp] theorem State.clearDisplay_st : (s.clearDisplay).st = s.st := rfl
@[simp] theorem State.clearDisplay_mem : (s.clearDisplay).mem = s.mem := rfl
@[simp] theorem State.clearDisplay_stack : (s.clearDisplay).stack = s.stack := rfl
@[simp] theorem State.clearDisplay_disp : (s.clearDisplay).disp = Display.blank := rfl
@[simp] theorem State.clearDisplay_dirty : (s.clearDisplay).dirty = true := rfl
@[simp] theorem State.clearDisplay_keys : (s.clearDisplay).keys = s.keys := rfl
@[simp] theorem State.clearDisplay_fault : (s.clearDisplay).fault = s.fault := rfl
@[simp] theorem State.clearDisplay_params : (s.clearDisplay).params = s.params := rfl
@[simp] theorem State.clearDisplay_rnd : (s.clearDisplay).rnd = s.rnd := rfl
@[simp] theorem State.clearDisplay_keyPick : (s.clearDisplay).keyPick = s.keyPick := rfl

/-! ### drawRnd -/

@[simp] theorem State.drawRnd_v : (s.drawRnd).v = s.v := rfl
@[simp] theorem State.drawRnd_i : (s.drawRnd).i = s.i := rfl
@[simp] theorem State.drawRnd_pc : (s.drawRnd).pc = s.pc := rfl
@[simp] theorem State.drawRnd_dt : (s.drawRnd).dt = s.dt := rfl
@[simp] theorem State.drawRnd_st : (s.drawRnd).st = s.st := rfl
@[simp] theorem State.drawRnd_mem : (s.drawRnd).mem = s.mem := rfl
@[simp] theorem State.drawRnd_stack : (s.drawRnd).stack = s.stack := rfl
@[simp] theorem State.drawRnd_disp : (s.drawRnd).disp = s.disp := rfl
@[simp] theorem State.drawRnd_dirty : (s.drawRnd).dirty = s.dirty := rfl
@[simp] theorem State.drawRnd_keys : (s.drawRnd).keys = s.keys := rfl
@[simp] theorem State.drawRnd_fault : (s.drawRnd).fault = s.fault := rfl
@[simp] theorem State.drawRnd_params : (s.drawRnd).params = s.params := rfl
@[simp] theorem State.drawRnd_rnd : (s.drawRnd).rnd = s.rnd.advance := rfl
@[simp] theorem State.drawRnd_keyPick : (s.drawRnd).keyPick = s.keyPick := rfl

/-! ### drawKeyPick -/

@[simp] theorem State.drawKeyPick_v : (s.drawKeyPick).v = s.v := rfl
@[simp] theorem State.drawKeyPick_i : (s.drawKeyPick).i = s.i := rfl
@[simp] theorem State.drawKeyPick_pc : (s.drawKeyPick).pc = s.pc := rfl
@[simp] theorem State.drawKeyPick_dt : (s.drawKeyPick).dt = s.dt := rfl
@[simp] theorem State.drawKeyPick_st : (s.drawKeyPick).st = s.st := rfl
@[simp] theorem State.drawKeyPick_mem : (s.drawKeyPick).mem = s.mem := rfl
@[simp] theorem State.drawKeyPick_stack : (s.drawKeyPick).stack = s.stack := rfl
@[simp] theorem State.drawKeyPick_disp : (s.drawKeyPick).disp = s.disp := rfl
@[simp] theorem State.drawKeyPick_dirty : (s.drawKeyPick).dirty = s.dirty := rfl
@[simp] theorem State.drawKeyPick_keys : (s.drawKeyPick).keys = s.keys := rfl
@[simp] theorem State.drawKeyPick_fault : (s.drawKeyPick).fault = s.fault := rfl
@[simp] theorem State.drawKeyPick_params : (s.drawKeyPick).params = s.params := rfl
@[simp] theorem State.drawKeyPick_rnd : (s.drawKeyPick).rnd = s.rnd := rfl
@[simp] theorem State.drawKeyPick_keyPick : (s.drawKeyPick).keyPick = s.keyPick.advance := rfl

/-! ### tick -/

@[simp] theorem State.tick_v : (s.tick).v = s.v := rfl
@[simp] theorem State.tick_i : (s.tick).i = s.i := rfl
@[simp] theorem State.tick_pc : (s.tick).pc = s.pc := rfl
@[simp] theorem State.tick_dt : (s.tick).dt = tickDown s.dt := rfl
@[simp] theorem State.tick_st : (s.tick).st = tickDown s.st := rfl
@[simp] theorem State.tick_mem : (s.tick).mem = s.mem := rfl
@[simp] theorem State.tick_stack : (s.tick).stack = s.stack := rfl
@[simp] theorem State.tick_disp : (s.tick).disp = s.disp := rfl
@[simp] theorem State.tick_dirty : (s.tick).dirty = s.dirty := rfl
@[simp] theorem State.tick_keys : (s.tick).keys = s.keys := rfl
@[simp] theorem State.tick_fault : (s.tick).fault = s.fault := rfl
@[simp] theorem State.tick_params : (s.tick).params = s.params := rfl
@[simp] theorem State.tick_rnd : (s.tick).rnd = s.rnd := rfl
@[simp] theorem State.tick_keyPick : (s.tick).keyPick = s.keyPick := rfl

/-! ### enterFaulted -/

@[simp] theorem State.enterFaulted_v (f : Fault) (ad op : Option Word) : (s.enterFaulted f ad op).v = s.v := rfl
@[simp] theorem State.enterFaulted_i (f : Fault) (ad op : Option Word) : (s.enterFaulted f ad op).i = s.i := rfl
@[simp] theorem State.enterFaulted_pc (f : Fault) (ad op : Option Word) : (s.enterFaulted f ad op).pc = s.pc := rfl
@[simp] theorem State.enterFaulted_dt (f : Fault) (ad op : Option Word) : (s.enterFaulted f ad op).dt = s.dt := rfl
@[simp] theorem State.enterFaulted_st (f : Fault) (ad op : Option Word) : (s.enterFaulted f ad op).st = s.st := rfl
@[simp] theorem State.enterFaulted_mem (f : Fault) (ad op : Option Word) : (s.enterFaulted f ad op).mem = s.mem := rfl
@[simp] theorem State.enterFaulted_stack (f : Fault) (ad op : Option Word) : (s.enterFaulted f ad op).stack = s.stack := rfl
@[simp] theorem State.enterFaulted_disp (f : Fault) (ad op : Option Word) : (s.enterFaulted f ad op).disp = s.disp := rfl
@[simp] theorem State.enterFaulted_dirty (f : Fault) (ad op : Option Word) : (s.enterFaulted f ad op).dirty = s.dirty := rfl
@[simp] theorem State.enterFaulted_keys (f : Fault) (ad op : Option Word) : (s.enterFaulted f ad op).keys = s.keys := rfl
@[simp] theorem State.enterFaulted_fault (f : Fault) (ad op : Option Word) : (s.enterFaulted f ad op).fault = some ⟨f, ad, op⟩ := rfl
@[simp] theorem State.enterFaulted_params (f : Fault) (ad op : Option Word) : (s.enterFaulted f ad op).params = s.params := rfl
@[simp] theorem State.enterFaulted_rnd (f : Fault) (ad op : Option Word) : (s.enterFaulted f ad op).rnd = s.rnd := rfl
@[simp] theorem State.enterFaulted_keyPick (f : Fault) (ad op : Option Word) : (s.enterFaulted f ad op).keyPick = s.keyPick := rfl

end Sys2Proof.Machine
end

