-- ==== Sys2Proof/Laws/Memory.lean ====
section
/-! SUPPORT. What the memory operations do: read after write, what a write leaves alone, and that
every operation keeps the canonical form. -/

namespace Sys2Proof.Machine

namespace Memory

@[simp] theorem read_nil (a : Nat) : read [] a = 0 := rfl

theorem read_cons (k a : Nat) (b : Byte) (m : Memory) :
    read ((k, b) :: m) a = if a = k then b else read m a := rfl

theorem read_insert (a : Nat) (b : Byte) (m : Memory) (a' : Nat)
    (h : ∀ e ∈ m, e.1 ≠ a) : read (insert a b m) a' = if a' = a then b else read m a' := by
  induction m with
  | nil => rfl
  | cons e m ih =>
    obtain ⟨k, c⟩ := e
    have hk : k ≠ a := h (k, c) (by simp)
    have ih' := ih fun e he => h e (by simp [he])
    unfold insert
    split
    · simp only [read_cons]
    · simp only [read_cons, ih']
      by_cases h1 : a' = k
      · subst h1; simp [hk]
      · simp [h1]

theorem read_erase (a : Nat) (m : Memory) (a' : Nat) :
    read (erase a m) a' = if a' = a then 0 else read m a' := by
  induction m with
  | nil => simp [erase]
  | cons e m ih =>
    obtain ⟨k, c⟩ := e
    unfold erase
    split
    · next h => subst h; rw [ih, read_cons]; split <;> simp_all
    · next h =>
      rw [read_cons, read_cons, ih]
      by_cases h1 : a' = k
      · subst h1; simp [h]
      · simp [h1]

theorem ne_of_mem_erase {a : Nat} {m : Memory} : ∀ e ∈ erase a m, e.1 ≠ a := by
  induction m with
  | nil => simp [erase]
  | cons e m ih =>
    obtain ⟨k, c⟩ := e
    unfold erase
    split
    · exact ih
    · next h =>
      intro e he
      rcases List.mem_cons.1 he with rfl | he
      · exact h
      · exact ih e he

/-- Read after write, at every address and for every list of entries. -/
theorem read_write (m : Memory) (a : Nat) (b : Byte) (a' : Nat) :
    (m.write a b).read a' = if a' = a then b else m.read a' := by
  unfold write
  split
  · next h => subst h; exact read_erase a m a'
  · rw [read_insert _ _ _ _ ne_of_mem_erase, read_erase]; split <;> rfl

@[simp] theorem read_write_same (m : Memory) (a : Nat) (b : Byte) : (m.write a b).read a = b := by
  simp [read_write]

theorem read_write_other (m : Memory) {a a' : Nat} (b : Byte) (h : a' ≠ a) :
    (m.write a b).read a' = m.read a' := by
  simp [read_write, h]

/-! ### Consecutive bytes -/

theorem read_writeBytes (bs : List Byte) (m : Memory) (a a' : Nat) :
    (m.writeBytes a bs).read a' =
      if h : a ≤ a' ∧ a' < a + bs.length then bs[a' - a] else m.read a' := by
  induction bs generalizing m a with
  | nil =>
    have : ¬ (a ≤ a' ∧ a' < a + ([] : List Byte).length) := by simp
    rw [dif_neg this]; rfl
  | cons b bs ih =>
    rw [writeBytes, ih, read_write]
    by_cases h0 : a' = a
    · subst h0
      rw [dif_neg (by omega), dif_pos (by simp)]; simp
    · by_cases h1 : a ≤ a' ∧ a' < a + (b :: bs).length
      · have h2 : a + 1 ≤ a' ∧ a' < a + 1 + bs.length := by
          simp only [List.length_cons] at h1; omega
        rw [dif_pos h1, dif_pos h2]
        have h3 : a' - a = (a' - (a + 1)) + 1 := by omega
        simp [h3]
      · have h2 : ¬ (a + 1 ≤ a' ∧ a' < a + 1 + bs.length) := by
          simp only [List.length_cons] at h1; omega
        rw [dif_neg h1, dif_neg h2, if_neg h0]

/-- A byte outside the stored range reads as before. -/
theorem read_writeBytes_outside {bs : List Byte} {m : Memory} {a a' : Nat}
    (h : ¬ (a ≤ a' ∧ a' < a + bs.length)) : (m.writeBytes a bs).read a' = m.read a' := by
  rw [read_writeBytes, dif_neg h]

/-- The k-th stored byte. -/
theorem read_writeBytes_get {bs : List Byte} {m : Memory} {a k : Nat} {b : Byte}
    (h : bs[k]? = some b) : (m.writeBytes a bs).read (a + k) = b := by
  obtain ⟨hk, rfl⟩ := List.getElem?_eq_some_iff.1 h
  rw [read_writeBytes, dif_pos (by omega)]
  simp

/-! ### The canonical form -/

theorem wfFrom_cons {lo k : Nat} {b : Byte} {m : Memory} :
    wfFrom lo ((k, b) :: m) = true ↔ lo ≤ k ∧ k < 4096 ∧ b ≠ 0 ∧ wfFrom (k + 1) m = true := by
  simp [wfFrom, unlisted, and_assoc]

theorem wfFrom_mono {lo lo' : Nat} (h : lo' ≤ lo) {m : Memory} (hm : wfFrom lo m = true) :
    wfFrom lo' m = true := by
  cases m with
  | nil => rfl
  | cons e m => obtain ⟨k, b⟩ := e; rw [wfFrom_cons] at *; exact ⟨by omega, hm.2⟩

theorem wfFrom_erase (a : Nat) {m : Memory} {lo : Nat} (h : wfFrom lo m = true) :
    wfFrom lo (erase a m) = true := by
  induction m generalizing lo with
  | nil => rfl
  | cons e m ih =>
    obtain ⟨k, b⟩ := e
    rw [wfFrom_cons] at h
    unfold erase
    split
    · exact ih (wfFrom_mono (by omega) h.2.2.2)
    · exact wfFrom_cons.2 ⟨h.1, h.2.1, h.2.2.1, ih h.2.2.2⟩

theorem wfFrom_insert {a : Nat} {b : Byte} {m : Memory} {lo : Nat} (hlo : lo ≤ a) (ha : a < 4096)
    (hb : b ≠ 0) (hm : wfFrom lo m = true) (hne : ∀ e ∈ m, e.1 ≠ a) :
    wfFrom lo (insert a b m) = true := by
  induction m generalizing lo with
  | nil => exact wfFrom_cons.2 ⟨hlo, ha, hb, rfl⟩
  | cons e m ih =>
    obtain ⟨k, c⟩ := e
    have hk : k ≠ a := hne (k, c) (by simp)
    have h := wfFrom_cons.1 hm
    unfold insert
    split
    · exact wfFrom_cons.2 ⟨hlo, ha, hb, wfFrom_cons.2 ⟨by omega, h.2⟩⟩
    · exact wfFrom_cons.2
        ⟨h.1, h.2.1, h.2.2.1, ih (by omega) h.2.2.2 fun e he => hne e (by simp [he])⟩

/-- A write inside the address space keeps the canonical form. -/
theorem wf_write {m : Memory} {a : Nat} (b : Byte) (hm : m.wf = true) (ha : a < 4096) :
    (m.write a b).wf = true := by
  unfold write
  split
  · exact wfFrom_erase a hm
  · next h => exact wfFrom_insert (Nat.zero_le a) ha h (wfFrom_erase a hm) ne_of_mem_erase

theorem wf_writeBytes {bs : List Byte} {m : Memory} {a : Nat} (hm : m.wf = true)
    (ha : a + bs.length ≤ 4096) : (m.writeBytes a bs).wf = true := by
  induction bs generalizing m a with
  | nil => exact hm
  | cons b bs ih =>
    simp only [List.length_cons] at ha
    exact ih (wf_write b hm (by omega)) (by omega)

theorem read_eq_zero_of_lt {m : Memory} {lo a : Nat} (hm : wfFrom lo m = true) (ha : a < lo) :
    read m a = 0 := by
  induction m generalizing lo with
  | nil => rfl
  | cons e m ih =>
    obtain ⟨k, b⟩ := e
    have h := wfFrom_cons.1 hm
    rw [read_cons, if_neg (by omega)]
    exact ih h.2.2.2 (by omega)

theorem wfFrom_ext {m m' : Memory} {lo : Nat} (hm : wfFrom lo m = true)
    (hm' : wfFrom lo m' = true) (h : ∀ a, read m a = read m' a) : m = m' := by
  induction m generalizing m' lo with
  | nil =>
    cases m' with
    | nil => rfl
    | cons e m' =>
      obtain ⟨k, b⟩ := e
      have := h k
      rw [read_cons, if_pos rfl] at this
      exact absurd this.symm (wfFrom_cons.1 hm').2.2.1
  | cons e m ih =>
    obtain ⟨k, b⟩ := e
    have w := wfFrom_cons.1 hm
    cases m' with
    | nil =>
      have := h k
      rw [read_cons, if_pos rfl] at this
      exact absurd this w.2.2.1
    | cons e' m' =>
      obtain ⟨k', b'⟩ := e'
      have w' := wfFrom_cons.1 hm'
      have hkk : k = k' := by
        rcases Nat.lt_trichotomy k k' with hlt | heq | hgt
        · have := h k
          rw [read_cons, if_pos rfl, read_cons, if_neg (by omega),
            read_eq_zero_of_lt w'.2.2.2 (by omega)] at this
          exact absurd this w.2.2.1
        · exact heq
        · have := h k'
          rw [read_cons, if_neg (by omega), read_cons, if_pos rfl,
            read_eq_zero_of_lt w.2.2.2 (by omega)] at this
          exact absurd this.symm w'.2.2.1
      subst hkk
      have hb : b = b' := by have := h k; rwa [read_cons, if_pos rfl, read_cons, if_pos rfl] at this
      subst hb
      congr 1
      refine ih w.2.2.2 w'.2.2.2 fun a => ?_
      by_cases ha : a = k
      · subst ha
        rw [read_eq_zero_of_lt w.2.2.2 (by omega), read_eq_zero_of_lt w'.2.2.2 (by omega)]
      · have := h a; rwa [read_cons, if_neg ha, read_cons, if_neg ha] at this

/-- Equal memories are equal data: two canonical memories that read alike are the same list. -/
theorem wf_ext {m m' : Memory} (hm : m.wf = true) (hm' : m'.wf = true)
    (h : ∀ a, m.read a = m'.read a) : m = m' := wfFrom_ext hm hm' h

theorem wf_nil : wf [] = true := rfl

end Memory

/-- A range of at least one byte is in range when its last byte is (20_memory.md R58). -/
theorem inRange_iff {a m : Nat} : inRange a m = true ↔ m = 0 ∨ a + m ≤ 4096 := by
  simp [inRange]

theorem inRange_zero (a : Nat) : inRange a 0 = true := rfl

end Sys2Proof.Machine
end

