-- ==== Sys2Proof/Laws/Decode.lean ====
section
/-! SUPPORT. The fields of the words the encoder writes (30_encoding.md R81, R84). -/

namespace Sys2Proof

/-- The five fields of a REG_REG word; a REG_IMM word is one whose kk is two nibbles. -/
theorem toNat_wordRegReg (c : BitVec 4) (x y : RegIdx) (f : BitVec 4) :
    (wordRegReg c x y f).toNat = c.toNat * 4096 + x.val * 256 + y.val * 16 + f.toNat := by
  have hc := c.isLt
  have hx : (nibble x).toNat = x.val := by simp [nibble]
  have hy : (nibble y).toNat = y.val := by simp [nibble]
  have hf := f.isLt
  simp only [wordRegReg, BitVec.toNat_append, hx, hy]
  rw [← Nat.shiftLeft_add_eq_or_of_lt (by omega), ← Nat.shiftLeft_add_eq_or_of_lt (by omega),
    ← Nat.shiftLeft_add_eq_or_of_lt (by omega)]
  simp only [Nat.shiftLeft_eq]
  omega

theorem toNat_wordRegImm (c : BitVec 4) (x : RegIdx) (kk : Byte) :
    (wordRegImm c x kk).toNat = c.toNat * 4096 + x.val * 256 + kk.toNat := by
  have hc := c.isLt
  have hx : (nibble x).toNat = x.val := by simp [nibble]
  have hk := kk.isLt
  simp only [wordRegImm, BitVec.toNat_append, hx]
  rw [← Nat.shiftLeft_add_eq_or_of_lt (by omega), ← Nat.shiftLeft_add_eq_or_of_lt (by omega)]
  simp only [Nat.shiftLeft_eq]
  omega

theorem toNat_wordAddr (c : BitVec 4) (nnn : Addr12) :
    (wordAddr c nnn).toNat = c.toNat * 4096 + nnn.toNat := by
  have hn := nnn.isLt
  simp only [wordAddr, BitVec.toNat_append]
  rw [← Nat.shiftLeft_add_eq_or_of_lt (by omega), Nat.shiftLeft_eq]

theorem val_fieldX (op : Word) : (fieldX op).val = op.toNat / 256 % 16 := by
  simp [fieldX, Nat.shiftRight_eq_div_pow]

theorem val_fieldY (op : Word) : (fieldY op).val = op.toNat / 16 % 16 := by
  simp [fieldY, Nat.shiftRight_eq_div_pow]

theorem fieldN_eq (op : Word) : fieldN op = op.toNat % 16 := by
  simp [fieldN]

theorem toNat_fieldKk (op : Word) : (fieldKk op).toNat = op.toNat % 256 := by
  simp [fieldKk]

theorem toNat_fieldNnn (op : Word) : (fieldNnn op).toNat = op.toNat % 4096 := by
  simp [fieldNnn]

/-! ### The four masks of the table, as arithmetic on the word -/

theorem toNat_and_maskF000 (op : Word) : (op &&& (0xF000 : Word)).toNat = op.toNat / 4096 * 4096 := by
  have h : op &&& (0xF000 : Word) = (op >>> 12) <<< 12 := by
    apply BitVec.eq_of_getLsbD_eq
    intro i hi
    have hm : (0xF000 : Word).getLsbD i = decide (12 ≤ i) :=
      (by decide : ∀ i : Fin 16, (0xF000 : Word).getLsbD i = decide (12 ≤ i.val)) ⟨i, hi⟩
    simp only [BitVec.getLsbD_and, BitVec.getLsbD_shiftLeft, BitVec.getLsbD_ushiftRight, hm]
    by_cases h12 : 12 ≤ i
    · simp [h12, hi, Nat.not_lt.2 h12]
    · simp [h12, Nat.lt_of_not_le h12]
  have := op.isLt
  rw [h, BitVec.toNat_shiftLeft, BitVec.toNat_ushiftRight, Nat.shiftLeft_eq,
    Nat.shiftRight_eq_div_pow]
  omega

/-- Masking with two disjoint masks adds the two parts. -/
theorem toNat_and_or (op hi lo : Word) (h : hi &&& lo = 0) :
    (op &&& (hi ||| lo)).toNat = (op &&& hi).toNat + (op &&& lo).toNat := by
  have e : op &&& (hi ||| lo) = (op &&& hi) ||| (op &&& lo) := by
    apply BitVec.eq_of_getLsbD_eq; intro i _; simp [Bool.and_or_distrib_left]
  have d : (op &&& hi) &&& (op &&& lo) = 0#16 := by
    apply BitVec.eq_of_getLsbD_eq
    intro i _
    have hb := congrArg (fun w : Word => w.getLsbD i) h
    simp only [BitVec.getLsbD_and, BitVec.ofNat_eq_ofNat, BitVec.getLsbD_zero] at hb ⊢
    revert hb
    cases op.getLsbD i <;> cases hi.getLsbD i <;> cases lo.getLsbD i <;> simp
  rw [e, ← BitVec.add_eq_or_of_and_eq_zero _ _ d, BitVec.toNat_add_of_and_eq_zero d]

theorem toNat_and_maskF00F (op : Word) :
    (op &&& (0xF00F : Word)).toNat = op.toNat / 4096 * 4096 + op.toNat % 16 := by
  rw [show (0xF00F : Word) = 0xF000 ||| 0x000F by decide, toNat_and_or _ _ _ (by decide),
    toNat_and_maskF000, BitVec.toNat_and]
  exact congrArg _ (Nat.and_two_pow_sub_one_eq_mod op.toNat 4)

theorem toNat_and_maskF0FF (op : Word) :
    (op &&& (0xF0FF : Word)).toNat = op.toNat / 4096 * 4096 + op.toNat % 256 := by
  rw [show (0xF0FF : Word) = 0xF000 ||| 0x00FF by decide, toNat_and_or _ _ _ (by decide),
    toNat_and_maskF000, BitVec.toNat_and]
  exact congrArg _ (Nat.and_two_pow_sub_one_eq_mod op.toNat 8)

theorem toNat_and_maskFFFF (op : Word) : (op &&& (0xFFFF : Word)).toNat = op.toNat := by
  have := op.isLt
  rw [BitVec.toNat_and]
  exact (Nat.and_two_pow_sub_one_eq_mod op.toNat 16).trans (by omega)

/-! ### The rows of the table -/

theorem OpcodeRow.matchesWord_iff {r : OpcodeRow} {op : Word} :
    r.matchesWord op = true ↔ op &&& r.mask = r.pattern := by
  simp [OpcodeRow.matchesWord]

/-- Two rows differ in a bit that both masks fix (30_encoding.md R91). -/
theorem opcodeRows_disjoint : opcodeRows.Pairwise fun r q =>
    (r.pattern ^^^ q.pattern) &&& (r.mask &&& q.mask) ≠ 0 := by decide

/-- Rows that differ in a bit that both masks fix do not match the same word. -/
theorem OpcodeRow.not_both_match {r q : OpcodeRow} {op : Word}
    (h : (r.pattern ^^^ q.pattern) &&& (r.mask &&& q.mask) ≠ 0) (hr : r.matchesWord op = true) :
    q.matchesWord op = false := by
  rw [← Bool.not_eq_true, OpcodeRow.matchesWord_iff]
  rw [OpcodeRow.matchesWord_iff] at hr
  intro hq
  apply h
  rw [← hr, ← hq]
  apply BitVec.eq_of_getLsbD_eq
  intro i _
  simp only [BitVec.getLsbD_and, BitVec.getLsbD_xor, BitVec.ofNat_eq_ofNat, BitVec.getLsbD_zero]
  cases op.getLsbD i <;> cases r.mask.getLsbD i <;> cases q.mask.getLsbD i <;> rfl

/-- The first row of a list without overlaps that matches a word is any row that matches it. -/
theorem find_matching_row {rows : List OpcodeRow} {op : Word} {r : OpcodeRow}
    (h : rows.Pairwise fun r q => (r.pattern ^^^ q.pattern) &&& (r.mask &&& q.mask) ≠ 0)
    (hr : r ∈ rows) (hm : r.matchesWord op = true) :
    rows.find? (·.matchesWord op) = some r := by
  induction rows with
  | nil => cases hr
  | cons q rows ih =>
    rw [List.pairwise_cons] at h
    rcases List.mem_cons.1 hr with rfl | hr
    · simp [hm]
    · have hq : q.matchesWord op = false := by
        cases hv : q.matchesWord op with
        | false => rfl
        | true => exact absurd hm (by simp [OpcodeRow.not_both_match (h.1 r hr) hv])
      simp [hq, ih h.2 hr]

/-- A word that a row matches decodes to that row's instruction. -/
theorem decodeWord_of_row {op : Word} {r : OpcodeRow} (hr : r ∈ opcodeRows)
    (hm : op &&& r.mask = r.pattern) : decodeWord op = some (r.build op) := by
  rw [decodeWord, find_matching_row opcodeRows_disjoint hr (OpcodeRow.matchesWord_iff.2 hm)]
  rfl

end Sys2Proof
end

