-- ==== Sys2Proof/Laws/Ops.lean ====
section
/-! SUPPORT. What the register, block, stack, display, skip, tick and fetch operations do. -/

namespace Sys2Proof.Machine

/-! ### Registers, memory bytes, pixels and keys after an update -/

theorem State.reg_setReg (s : State) (x : RegIdx) (b : Byte) (r : RegIdx) :
    (s.setReg x b).reg r = if r = x then b else s.reg r := by
  simp only [State.reg, State.setReg_v, Fin.getElem_fin, Vector.getElem_set]
  by_cases h : r = x
  · simp [h]
  · have : ¬ (x : Nat) = r := fun e => h (Fin.ext e.symm)
    simp [h, this]

@[simp] theorem State.reg_setReg_same (s : State) (x : RegIdx) (b : Byte) :
    (s.setReg x b).reg x = b := by simp [State.reg_setReg]

theorem State.reg_setReg_other (s : State) {x r : RegIdx} (b : Byte) (h : r ≠ x) :
    (s.setReg x b).reg r = s.reg r := by simp [State.reg_setReg, h]

theorem State.reg_setFlag (s : State) (b : Byte) (r : RegIdx) :
    (s.setFlag b).reg r = if r = 15 then b else s.reg r := State.reg_setReg s VF b r

theorem State.reg_setResultFlag (s : State) (x : RegIdx) (b f : Byte) (r : RegIdx) :
    (s.setResultFlag x b f).reg r = if r = 15 then f else if r = x then b else s.reg r := by
  rw [State.setResultFlag, State.reg_setFlag, State.reg_setReg]

theorem State.reg_congr {s t : State} (h : t.v = s.v) (r : RegIdx) : t.reg r = s.reg r := by
  simp only [State.reg, h]

theorem State.memRead_congr {s t : State} (h : t.mem = s.mem) (a : Nat) :
    t.memRead a = s.memRead a := by simp only [State.memRead, h]

theorem State.pixel_congr {s t : State} (h : t.disp = s.disp) (px : Fin 64) (py : Fin 32) :
    t.pixel px py = s.pixel px py := by simp only [State.pixel, h]

theorem State.key_congr {s t : State} (h : t.keys = s.keys) (k : Fin 16) : t.key k = s.key k := by
  simp only [State.key, h]

theorem State.memRead_memWrite (s : State) (a : Nat) (b : Byte) (a' : Nat) :
    (s.memWrite a b).memRead a' = if a' = a then b else s.memRead a' := Memory.read_write _ _ _ _

theorem State.pixel_writePixel (s : State) (px : Fin 64) (py : Fin 32) (b : Bool) (qx : Fin 64)
    (qy : Fin 32) :
    (s.writePixel px py b).pixel qx qy = if qx = px ∧ qy = py then b else s.pixel qx qy := by
  simp only [State.pixel, State.writePixel, Fin.getElem_fin, Vector.getElem_set]
  by_cases hx : qx = px
  · subst hx
    by_cases hy : qy = py
    · subst hy; simp
    · have : ¬ (py : Nat) = qy := fun e => hy (Fin.ext e.symm)
      simp [hy, this]
  · have : ¬ (px : Nat) = qx := fun e => hx (Fin.ext e.symm)
    simp [hx, this]

@[simp] theorem State.pixel_clearDisplay (s : State) (px : Fin 64) (py : Fin 32) :
    s.clearDisplay.pixel px py = false := by
  simp [State.pixel, Display.blank]

theorem key_setKey (s : State) (k : Fin 16) (b : Bool) (j : Fin 16) :
    (setKey s k b).key j = if j = k then b else s.key j := by
  simp only [State.key, setKey, Fin.getElem_fin, Vector.getElem_set]
  by_cases h : j = k
  · simp [h]
  · have : ¬ (k : Nat) = j := fun e => h (Fin.ext e.symm)
    simp [h, this]

/-! ### Block transfer -/

/-- A block store changes nothing but memory. -/
theorem State.storeBlock_eq (a k : Nat) (s : State) :
    State.storeBlock a k s = { s with mem := (State.storeBlock a k s).mem } := by
  induction k with
  | zero => rfl
  | succ k ih => rw [State.storeBlock, ih]; rfl

theorem State.reg_storeBlock (a k : Nat) (s : State) (r : RegIdx) :
    (State.storeBlock a k s).reg r = s.reg r := by rw [State.storeBlock_eq]; rfl

/-- The bytes a block store of at most 16 registers leaves. -/
theorem State.memRead_storeBlock (a k : Nat) (s : State) (hk : k ≤ 16) (a' : Nat) :
    (State.storeBlock a k s).memRead a' =
      if a ≤ a' ∧ a' < a + k then s.reg (Fin.ofNat 16 (a' - a)) else s.memRead a' := by
  induction k with
  | zero => rw [if_neg (by omega)]; rfl
  | succ k ih =>
    rw [State.storeBlock, State.memRead_memWrite, ih (by omega)]
    by_cases h : a' = a + k
    · subst h
      rw [if_pos rfl, if_pos (by omega), Nat.add_sub_cancel_left]
    · rw [if_neg h]
      by_cases h' : a ≤ a' ∧ a' < a + k
      · rw [if_pos h', if_pos (by omega)]
      · rw [if_neg h', if_neg (by omega)]

theorem State.wf_storeBlock (a k : Nat) (s : State) (hs : s.mem.wf = true) (h : a + k ≤ 4096) :
    (State.storeBlock a k s).mem.wf = true := by
  induction k with
  | zero => exact hs
  | succ k ih =>
    rw [State.storeBlock, State.memWrite_mem]
    exact Memory.wf_write _ (ih (by omega)) (by omega)

/-- A block load changes nothing but the registers. -/
theorem State.loadBlock_eq (a k : Nat) (s : State) :
    State.loadBlock a k s = { s with v := (State.loadBlock a k s).v } := by
  induction k with
  | zero => rfl
  | succ k ih => rw [State.loadBlock, ih]; rfl

theorem State.memRead_loadBlock (a k : Nat) (s : State) (a' : Nat) :
    (State.loadBlock a k s).memRead a' = s.memRead a' := by rw [State.loadBlock_eq]; rfl

/-- The registers a block load of at most 16 leaves. -/
theorem State.reg_loadBlock (a k : Nat) (s : State) (hk : k ≤ 16) (r : RegIdx) :
    (State.loadBlock a k s).reg r = if r.val < k then s.memRead (a + r.val) else s.reg r := by
  induction k with
  | zero => rfl
  | succ k ih =>
    rw [State.loadBlock, State.reg_setReg, ih (by omega)]
    have hv : (Fin.ofNat 16 k).val = k := Nat.mod_eq_of_lt (by omega)
    by_cases h : r = Fin.ofNat 16 k
    · have : r.val = k := by rw [h, hv]
      rw [if_pos h, if_pos (by omega), this]
    · have hne : r.val ≠ k := fun e => h (Fin.ext (by rw [hv, e]))
      rw [if_neg h]
      by_cases h' : r.val < k
      · rw [if_pos h', if_pos (by omega)]
      · rw [if_neg h', if_neg (by omega)]

/-! ### The stack -/

theorem stackPush_eq_some {st st' : List Word} {a : Word} :
    stackPush st a = some st' ↔ st.length < 16 ∧ st' = st ++ [a] := by
  unfold stackPush
  split <;> simp_all [eq_comm]

theorem stackPush_eq_none {st : List Word} {a : Word} :
    stackPush st a = none ↔ 16 ≤ st.length := by
  simp [stackPush]

theorem stackPop_eq_some {st st' : List Word} {a : Word} :
    stackPop st = some (a, st') ↔ st = st' ++ [a] := by
  rcases List.eq_nil_or_concat st with rfl | ⟨l, b, rfl⟩
  · simp [stackPop]
  · simp [stackPop, and_comm, eq_comm]

theorem stackPop_eq_none {st : List Word} : stackPop st = none ↔ st = [] := by
  rcases List.eq_nil_or_concat st with rfl | ⟨l, b, rfl⟩ <;> simp [stackPop]

/-! ### Skip, tick, fetch -/

theorem State.skipIf_eq (s : State) (c : Bool) :
    s.skipIf c = s.setPc (if c then s.pc + 2 else s.pc) := by cases c <;> rfl

@[simp] theorem State.skipIf_true (s : State) : s.skipIf true = s.setPc (s.pc + 2) := rfl
@[simp] theorem State.skipIf_false (s : State) : s.skipIf false = s := rfl

theorem toNat_tickDown (b : Byte) : (tickDown b).toNat = b.toNat - 1 := by
  unfold tickDown
  split
  · next h => subst h; rfl
  · next h =>
    have : b.toNat ≠ 0 := fun e => h (BitVec.eq_of_toNat_eq e)
    bv_omega

theorem State.endOfStepTick_eq (s : State) :
    s.endOfStepTick = if s.params.tickSource = .perStep then s.tick else s := by
  unfold State.endOfStepTick
  cases s.params.tickSource <;> rfl

theorem toNat_wordOfBytes (hi lo : Byte) :
    (wordOfBytes hi lo).toNat = hi.toNat * 256 + lo.toNat := by
  have h := lo.isLt
  simp only [wordOfBytes, BitVec.toNat_append]
  rw [Nat.shiftLeft_eq, ← Nat.shiftLeft_eq, ← Nat.shiftLeft_add_eq_or_of_lt h, Nat.shiftLeft_eq]

/-- The fetch succeeds exactly when PC <= 0xFFE, with the big-endian word at PC. -/
theorem fetch_eq_some {s : State} {op : Word} :
    fetch s = some op ↔ s.pc.toNat ≤ 0xFFE ∧
      op = wordOfBytes (s.memRead s.pc.toNat) (s.memRead (s.pc.toNat + 1)) := by
  unfold fetch
  split
  · next h =>
    rw [inRange_iff] at h
    rw [Option.some.injEq, eq_comm]
    exact ⟨fun e => ⟨by omega, e⟩, fun e => e.2⟩
  · next h => rw [inRange_iff] at h; simp only [reduceCtorEq, false_iff]; omega

theorem fetch_eq_none {s : State} : fetch s = none ↔ 0xFFE < s.pc.toNat := by
  unfold fetch
  split
  · next h => rw [inRange_iff] at h; simp only [reduceCtorEq, false_iff]; omega
  · next h => rw [inRange_iff] at h; simp only [true_iff]; omega

/-! ### Operands -/

@[simp] theorem toNat_addrOperand (nnn : Addr12) : (addrOperand nnn).toNat = nnn.toNat := by
  have := nnn.isLt
  simp only [addrOperand, BitVec.toNat_setWidth]
  omega

@[simp] theorem toNat_wordOperand (b : Byte) : (wordOperand b).toNat = b.toNat := by
  have := b.isLt
  simp only [wordOperand, BitVec.toNat_setWidth]
  omega

@[simp] theorem toNat_flagByte (b : Bool) : (flagByte b).toNat = if b then 1 else 0 := by
  cases b <;> rfl

theorem flagByte_eq (b : Bool) : flagByte b = 0 ∨ flagByte b = 1 := by cases b <;> decide

theorem mem_allKeys (k : Fin 16) : k ∈ allKeys := by revert k; decide

theorem mem_pressedKeys {s : State} {k : Fin 16} : k ∈ pressedKeys s ↔ s.key k = true := by
  simp [pressedKeys, mem_allKeys]

theorem pressedKeys_eq_nil {s : State} : pressedKeys s = [] ↔ ∀ k, s.key k = false := by
  simp [pressedKeys, List.filter_eq_nil_iff, mem_allKeys]

/-- The pressed keys are listed lowest index first. -/
theorem pairwise_pressedKeys (s : State) : (pressedKeys s).Pairwise (· < ·) :=
  List.Pairwise.filter _ (by decide : allKeys.Pairwise (· < ·))

end Sys2Proof.Machine
end

