-- ==== Sys2Proof/Laws/Draw.lean ====
section
/-! SUPPORT. What drawing a sprite does (45_draw.md R165 to R169), composed bit by bit. -/

namespace Sys2Proof.Machine

/-- `t` is `s` after drawing sprite bits on exactly the pixels of `C`: those are inverted, VF is 1
where one of them was set and is kept otherwise, the display is dirty where there is one, and
nothing else changes. -/
structure Drew (C : Fin 64 → Fin 32 → Prop) (s t : State) : Prop where
  rest    : t = { s with v := t.v, disp := t.disp, dirty := t.dirty }
  regs    : ∀ r, r ≠ 15 → t.reg r = s.reg r
  covered : ∀ px py, C px py → t.pixel px py = !s.pixel px py
  others  : ∀ px py, ¬ C px py → t.pixel px py = s.pixel px py
  hit     : (∃ px py, C px py ∧ s.pixel px py = true) → t.reg 15 = 1
  miss    : (∀ px py, C px py → s.pixel px py = false) → t.reg 15 = s.reg 15
  dirty   : t.dirty = true ↔ s.dirty = true ∨ ∃ px py, C px py

theorem Drew.refl (s : State) : Drew (fun _ _ => False) s s where
  rest := rfl
  regs _ _ := rfl
  covered _ _ h := h.elim
  others _ _ _ := rfl
  hit := fun ⟨_, _, h, _⟩ => h.elim
  miss _ := rfl
  dirty := by simp

theorem Drew.congr {C C' : Fin 64 → Fin 32 → Prop} {s t : State} (h : Drew C s t)
    (e : ∀ px py, C px py ↔ C' px py) : Drew C' s t := by
  have : C = C' := by funext px py; exact propext (e px py)
  exact this ▸ h

/-- Drawing on pixels that were not drawn on yet. -/
theorem Drew.trans {C C' : Fin 64 → Fin 32 → Prop} {s t u : State} (h : Drew C s t)
    (h' : Drew C' t u) (disj : ∀ px py, C px py → ¬ C' px py) :
    Drew (fun px py => C px py ∨ C' px py) s u where
  rest := by rw [h'.rest, h.rest]
  regs r hr := (h'.regs r hr).trans (h.regs r hr)
  covered px py hc := by
    rcases hc with hc | hc
    · rw [h'.others _ _ (disj _ _ hc), h.covered _ _ hc]
    · rw [h'.covered _ _ hc, h.others _ _ fun hc' => disj _ _ hc' hc]
  others px py hc := by
    rw [h'.others _ _ fun c => hc (Or.inr c), h.others _ _ fun c => hc (Or.inl c)]
  hit := by
    rintro ⟨px, py, hc | hc, hp⟩
    · have ht := h.hit ⟨px, py, hc, hp⟩
      by_cases k : ∃ qx qy, C' qx qy ∧ t.pixel qx qy = true
      · exact h'.hit k
      · rw [h'.miss fun qx qy hq => ?_, ht]
        cases hv : t.pixel qx qy with
        | false => rfl
        | true => exact absurd ⟨qx, qy, hq, hv⟩ k
    · refine h'.hit ⟨px, py, hc, ?_⟩
      rw [h.others _ _ fun hc' => disj _ _ hc' hc, hp]
  miss hm := by
    rw [h'.miss fun px py hc => ?_, h.miss fun px py hc => hm px py (Or.inl hc)]
    rw [h.others _ _ fun hc' => disj _ _ hc' hc]
    exact hm px py (Or.inr hc)
  dirty := by
    rw [h'.dirty, h.dirty]
    constructor
    · rintro ((hd | ⟨px, py, hc⟩) | ⟨px, py, hc⟩)
      · exact Or.inl hd
      · exact Or.inr ⟨px, py, Or.inl hc⟩
      · exact Or.inr ⟨px, py, Or.inr hc⟩
    · rintro (hd | ⟨px, py, hc | hc⟩)
      · exact Or.inl (Or.inl hd)
      · exact Or.inl (Or.inr ⟨px, py, hc⟩)
      · exact Or.inr ⟨px, py, hc⟩

theorem Drew.flipPixel (s : State) (px : Fin 64) (py : Fin 32) :
    Drew (fun qx qy => qx = px ∧ qy = py) s (s.flipPixel px py) := by
  have hpix : ∀ qx qy, (s.flipPixel px py).pixel qx qy =
      if qx = px ∧ qy = py then !s.pixel px py else s.pixel qx qy := fun qx qy => by
    rw [State.flipPixel, State.pixel_writePixel]
    congr 1
    split <;> rfl
  have hreg : ∀ r, (s.flipPixel px py).reg r =
      if r = 15 ∧ s.pixel px py = true then 1 else s.reg r := fun r => by
    rw [State.flipPixel, State.reg_congr (State.writePixel_v _ _ _ _)]
    split
    · next h => rw [State.reg_setFlag]; simp [h]
    · next h => simp [h]
  refine ⟨?_, ?_, ?_, ?_, ?_, ?_, ?_⟩
  · rw [State.flipPixel]; split <;> rfl
  · intro r hr; rw [hreg]; simp [hr]
  · rintro qx qy ⟨rfl, rfl⟩; rw [hpix]; simp
  · intro qx qy h; rw [hpix, if_neg h]
  · rintro ⟨qx, qy, ⟨rfl, rfl⟩, h⟩; rw [hreg]; simp [h]
  · intro h; rw [hreg]; simp [h px py ⟨rfl, rfl⟩]
  · rw [State.flipPixel, State.writePixel_dirty]
    exact ⟨fun _ => Or.inr ⟨px, py, rfl, rfl⟩, fun _ => rfl⟩

theorem Drew.drawBit (bit : Bool) (px : Fin 64) (py : Fin 32) (s : State) :
    Drew (fun qx qy => bit = true ∧ qx = px ∧ qy = py) s (s.drawBit bit px py) := by
  cases bit with
  | false => exact (Drew.refl s).congr fun _ _ => by simp
  | true => exact (Drew.flipPixel s px py).congr fun _ _ => by simp

/-- The 8 columns of a sprite row are distinct (45_draw.md R167). -/
theorem spriteColumn_injective {x0 : Byte} {a b : Nat} (ha : a < 64) (hb : b < 64)
    (h : spriteColumn x0 a = spriteColumn x0 b) : a = b := by
  have : (x0.toNat + a) % 64 = (x0.toNat + b) % 64 := congrArg Fin.val h
  omega

/-- The at most 15 rows of a sprite are distinct (45_draw.md R167). -/
theorem spriteRow_injective {y0 : Byte} {a b : Nat} (ha : a < 32) (hb : b < 32)
    (h : spriteRow y0 a = spriteRow y0 b) : a = b := by
  have : (y0.toNat + a) % 32 = (y0.toNat + b) % 32 := congrArg Fin.val h
  omega

theorem Drew.drawCols (x0 b : Byte) (py : Fin 32) (k : Nat) (hk : k ≤ 8) (s : State) :
    Drew (fun qx qy => ∃ col, col < k ∧ spriteBit b col = true ∧ qx = spriteColumn x0 col ∧ qy = py)
      s (State.drawCols x0 b py k s) := by
  induction k with
  | zero => exact (Drew.refl s).congr fun _ _ => by simp
  | succ k ih =>
    refine ((ih (by omega)).trans (Drew.drawBit (spriteBit b k) (spriteColumn x0 k) py _) ?_).congr ?_
    · rintro qx qy ⟨col, hc, _, rfl, _⟩ ⟨_, h, _⟩
      have := spriteColumn_injective (by omega) (by omega) h
      omega
    · intro qx qy
      constructor
      · rintro (⟨col, hc, h⟩ | h)
        · exact ⟨col, by omega, h⟩
        · exact ⟨k, by omega, h⟩
      · rintro ⟨col, hc, h⟩
        by_cases e : col = k
        · subst e; exact Or.inr h
        · exact Or.inl ⟨col, by omega, h⟩

/-- What the first `k` rows of a sprite at (x0, y0) draw: the sprite bits are those of the memory
bytes from I upwards. -/
theorem Drew.drawRows (x0 y0 : Byte) (k : Nat) (hk : k ≤ 32) (s : State) :
    Drew (fun qx qy => ∃ row col, row < k ∧ col < 8 ∧ qx = spriteColumn x0 col ∧
        qy = spriteRow y0 row ∧ spriteBit (s.memRead (s.i.toNat + row)) col = true)
      s (State.drawRows x0 y0 k s) := by
  induction k with
  | zero => exact (Drew.refl s).congr fun _ _ => by simp
  | succ k ih =>
    have ih := ih (by omega)
    have hi : (State.drawRows x0 y0 k s).i = s.i := by rw [ih.rest]
    have hm : ∀ a, (State.drawRows x0 y0 k s).memRead a = s.memRead a :=
      State.memRead_congr (by rw [ih.rest])
    have h := Drew.drawCols x0 (s.memRead (s.i.toNat + k)) (spriteRow y0 k) 8 (Nat.le_refl 8)
      (State.drawRows x0 y0 k s)
    have e : State.drawRows x0 y0 (k + 1) s = State.drawCols x0 (s.memRead (s.i.toNat + k))
        (spriteRow y0 k) 8 (State.drawRows x0 y0 k s) := by rw [State.drawRows, hi, hm]
    rw [e]
    refine (ih.trans h ?_).congr ?_
    · rintro qx qy ⟨row, col, hr, _, _, rfl, _⟩ ⟨_, _, _, _, h'⟩
      have := spriteRow_injective (by omega) (by omega) h'
      omega
    · intro qx qy
      constructor
      · rintro (⟨row, col, hr, h⟩ | ⟨col, hc, hb, hx, hy⟩)
        · exact ⟨row, col, by omega, h⟩
        · exact ⟨k, col, by omega, hc, hx, hy, hb⟩
      · rintro ⟨row, col, hr, hc, hx, hy, hb⟩
        by_cases e : row = k
        · subst e; exact Or.inr ⟨col, hc, hb, hx, hy⟩
        · exact Or.inl ⟨row, col, by omega, hc, hx, hy, hb⟩

/-! ### Drawing any number of rows -/

theorem State.drawCols_rest (x0 b : Byte) (py : Fin 32) (k : Nat) (s : State) :
    State.drawCols x0 b py k s = { s with
      v := (State.drawCols x0 b py k s).v, disp := (State.drawCols x0 b py k s).disp,
      dirty := (State.drawCols x0 b py k s).dirty } := by
  induction k with
  | zero => rfl
  | succ k ih => rw [State.drawCols, (Drew.drawBit _ _ _ _).rest, ih]

/-- Drawing changes nothing but VF, pixels and the dirty flag, for any row count. -/
theorem State.drawRows_rest (x0 y0 : Byte) (k : Nat) (s : State) :
    State.drawRows x0 y0 k s = { s with
      v := (State.drawRows x0 y0 k s).v, disp := (State.drawRows x0 y0 k s).disp,
      dirty := (State.drawRows x0 y0 k s).dirty } := by
  induction k with
  | zero => rfl
  | succ k ih => rw [State.drawRows, State.drawCols_rest, ih]

theorem State.reg_drawCols (x0 b : Byte) (py : Fin 32) (k : Nat) (s : State) {r : RegIdx}
    (hr : r ≠ 15) : (State.drawCols x0 b py k s).reg r = s.reg r := by
  induction k with
  | zero => rfl
  | succ k ih => rw [State.drawCols, (Drew.drawBit _ _ _ _).regs r hr, ih]

theorem State.reg_drawRows (x0 y0 : Byte) (k : Nat) (s : State) {r : RegIdx} (hr : r ≠ 15) :
    (State.drawRows x0 y0 k s).reg r = s.reg r := by
  induction k with
  | zero => rfl
  | succ k ih => rw [State.drawRows, State.reg_drawCols _ _ _ _ _ hr, ih]

/-- VF, reset before a sprite is drawn, ends 0 or 1 (45_draw.md R166). -/
theorem Drew.vf_zero_or_one {C : Fin 64 → Fin 32 → Prop} {s t : State} (h : Drew C s t)
    (hs : s.reg 15 = 0 ∨ s.reg 15 = 1) : t.reg 15 = 0 ∨ t.reg 15 = 1 := by
  by_cases k : ∃ px py, C px py ∧ s.pixel px py = true
  · exact Or.inr (h.hit k)
  · rw [h.miss fun px py hc => ?_]
    · exact hs
    · cases hv : s.pixel px py with
      | false => rfl
      | true => exact absurd ⟨px, py, hc, hv⟩ k

theorem State.vf_drawRows (x0 y0 : Byte) (k : Nat) (s : State)
    (hs : s.reg 15 = 0 ∨ s.reg 15 = 1) :
    (State.drawRows x0 y0 k s).reg 15 = 0 ∨ (State.drawRows x0 y0 k s).reg 15 = 1 := by
  have cols : ∀ (b : Byte) py k (s : State), (s.reg 15 = 0 ∨ s.reg 15 = 1) →
      (State.drawCols x0 b py k s).reg 15 = 0 ∨ (State.drawCols x0 b py k s).reg 15 = 1 := by
    intro b py k s h
    induction k with
    | zero => exact h
    | succ k ih => exact (Drew.drawBit _ _ _ _).vf_zero_or_one ih
  induction k with
  | zero => exact hs
  | succ k ih => exact cols _ _ _ _ ih

/-- Drawing never clears the dirty flag (10_state.md R32). -/
theorem State.dirty_drawRows (x0 y0 : Byte) (k : Nat) (s : State) (hs : s.dirty = true) :
    (State.drawRows x0 y0 k s).dirty = true := by
  have cols : ∀ (b : Byte) py k (s : State), s.dirty = true →
      (State.drawCols x0 b py k s).dirty = true := by
    intro b py k s h
    induction k with
    | zero => exact h
    | succ k ih => exact (Drew.drawBit _ _ _ _).dirty.2 (Or.inl ih)
  induction k with
  | zero => exact hs
  | succ k ih => exact cols _ _ _ _ ih

/-- The pixels that DRW draws are those the sprite covers. -/
theorem spriteCovers_iff {s : State} {x y : RegIdx} {n : Nat} {px : Fin 64} {py : Fin 32} :
    spriteCovers s x y n px py ↔ ∃ row col, row < n ∧ col < 8 ∧ px = spriteColumn (s.reg x) col ∧
      py = spriteRow (s.reg y) row ∧ spriteBit (s.memRead (s.i.toNat + row)) col = true := by
  simp only [spriteCovers, Fin.ext_iff]
  rfl

/-- DRW, in range, with at most 15 rows: VF reset, then the sprite drawn on what it covers. -/
theorem execDrw_drew {x y : RegIdx} {n : Nat} {s : State} (hn : n < 16)
    (h : inRange s.i.toNat n = true) :
    ∃ t, execDrw x y n s = .next t ∧ Drew (spriteCovers s x y n) (s.setFlag 0) t := by
  refine ⟨_, by rw [execDrw, if_pos h], ?_⟩
  exact (Drew.drawRows (s.reg x) (s.reg y) n (by omega) (s.setFlag 0)).congr fun _ _ =>
    (spriteCovers_iff (s := s)).symm

end Sys2Proof.Machine
end

