-- ==== Sys2Proof/Laws/Step.lean ====
section
/-! SUPPORT. Everything a step, and each meaning, can answer. -/

namespace Sys2Proof.Machine

theorem endStep_eq_next {o : Host.Outcome State Fault Refusal} {t : State} :
    endStep o = .next t ↔ ∃ u, o = .next u ∧ t = u.endOfStepTick := by
  cases o <;> simp [endStep, eq_comm]

theorem endStep_eq_fault {o : Host.Outcome State Fault Refusal} {f : Fault} :
    endStep o = .fault f ↔ o = .fault f := by
  cases o <;> simp [endStep]

theorem endStep_eq_refused {o : Host.Outcome State Fault Refusal} {r : Refusal} :
    endStep o = .refused r ↔ o = .refused r := by
  cases o <;> simp [endStep]

/-- A step answers a next state exactly when no fault is recorded, the fetch is in range, the word
decodes, and its instruction answers one. -/
theorem step_eq_next {s t : State} :
    step s = .next t ↔ s.fault = none ∧ ∃ op i u, fetch s = some op ∧ decodeWord op = some i ∧
      exec i s.advancePc = .next u ∧ t = u.endOfStepTick := by
  unfold step
  cases s.fault with
  | some r => simp
  | none =>
    cases hf : fetch s with
    | none => simp [raise]
    | some op =>
      cases hd : decodeWord op with
      | none => simp [raise, hd]
      | some i => simp [endStep_eq_next, hd]

/-- A step faults in the order fetch, decode, instruction (60_exceptions.md R223). -/
theorem step_eq_fault {s : State} {f : Fault} :
    step s = .fault f ↔ s.fault = none ∧
      ((fetch s = none ∧ f = fetchFault s) ∨
       (∃ op, fetch s = some op ∧ decodeWord op = none ∧ f = .unknownOpcode op) ∨
       (∃ op i, fetch s = some op ∧ decodeWord op = some i ∧ exec i s.advancePc = .fault f)) := by
  unfold step
  cases s.fault with
  | some r => simp
  | none =>
    cases hf : fetch s with
    | none => simp [raise, eq_comm]
    | some op =>
      cases hd : decodeWord op with
      | none => simp [raise, hd, eq_comm]
      | some i => simp [endStep_eq_fault, hd]

/-! ### Each meaning with more than one outcome -/

theorem execRet_cases (s : State) :
    (∃ a older, s.stack = older ++ [a] ∧ execRet s = .next ((s.setStack older).setPc a)) ∨
    (s.stack = [] ∧ execRet s = .fault .stackUnderflow) := by
  unfold execRet
  cases h : stackPop s.stack with
  | none => exact Or.inr ⟨stackPop_eq_none.1 h, rfl⟩
  | some p => exact Or.inl ⟨p.1, p.2, stackPop_eq_some.1 h, rfl⟩

theorem execCall_cases (nnn : Addr12) (s : State) :
    (s.stack.length < 16 ∧
      execCall nnn s = .next ((s.setStack (s.stack ++ [s.pc])).setPc (addrOperand nnn))) ∨
    (16 ≤ s.stack.length ∧ execCall nnn s = .fault .stackOverflow) := by
  unfold execCall
  cases h : stackPush s.stack s.pc with
  | none => exact Or.inr ⟨stackPush_eq_none.1 h, rfl⟩
  | some st =>
    obtain ⟨hl, rfl⟩ := stackPush_eq_some.1 h
    exact Or.inl ⟨hl, rfl⟩

/-- The key index is V[x] mod 16, unless V[x] > 15 under KEY_INDEX_OOR = Fault. -/
theorem keyIndex_cases (p : Params) (v : Byte) :
    (∃ k : Fin 16, keyIndex p v = some k ∧ k.val = v.toNat % 16 ∧
      (v.toNat ≤ 15 ∨ p.keyIndexOor = .lowNibble)) ∨
    (keyIndex p v = none ∧ 15 < v.toNat ∧ p.keyIndexOor = .fault) := by
  unfold keyIndex
  split
  · next h => exact Or.inl ⟨_, rfl, (Nat.mod_eq_of_lt h).symm, Or.inl (by omega)⟩
  · next h =>
    cases p.keyIndexOor with
    | fault => exact Or.inr ⟨rfl, by omega, rfl⟩
    | lowNibble => exact Or.inl ⟨_, rfl, rfl, Or.inr rfl⟩

/-- LD Vx,K: the wait, or a pressed key stored, the lowest one under Lowest. -/
theorem execLdVxK_cases (x : RegIdx) (s : State) :
    ((∀ k, s.key k = false) ∧ execLdVxK x s = .next (s.setPc (s.pc - 2))) ∨
    (∃ k, s.key k = true ∧
      ((s.params.keyWaitChoice = .lowest ∧ (∀ j, j < k → s.key j = false) ∧
          execLdVxK x s = .next (s.setReg x (keyByte k))) ∨
       (s.params.keyWaitChoice = .anyPressed ∧
          execLdVxK x s = .next (s.drawKeyPick.setReg x (keyByte k))))) := by
  unfold execLdVxK
  cases h : pressedKeys s with
  | nil => exact Or.inl ⟨pressedKeys_eq_nil.1 h, rfl⟩
  | cons k ks =>
    right
    have hmem : ∀ j, j ∈ k :: ks ↔ s.key j = true := fun j => by rw [← h, mem_pressedKeys]
    simp only [State.chooseKey]
    cases hp : s.params.keyWaitChoice with
    | lowest =>
      refine ⟨k, (hmem k).1 (by simp), Or.inl ⟨rfl, fun j hj => ?_, rfl⟩⟩
      have hpw := h ▸ pairwise_pressedKeys s
      cases hv : s.key j with
      | false => rfl
      | true =>
        rcases List.mem_cons.1 ((hmem j).2 hv) with rfl | hjk
        · exact absurd hj (lt_irrefl _)
        · exact absurd (lt_trans hj (List.rel_of_pairwise_cons hpw hjk)) (lt_irrefl _)
    | anyPressed =>
      refine ⟨_, ?_, Or.inr ⟨rfl, rfl⟩⟩
      have hlt : s.keyPickByte.toNat % (ks.length + 1) < (k :: ks).length :=
        Nat.mod_lt _ (Nat.succ_pos _)
      rw [← hmem, List.getD_eq_getElem _ _ hlt]
      exact List.getElem_mem _

/-- No meaning is refused. -/
theorem exec_ne_refused (i : Instr) (s : State) (r : Refusal) : exec i s ≠ .refused r := by
  intro h
  cases i with
  | ret => rcases execRet_cases s with ⟨_, _, _, e⟩ | ⟨_, e⟩ <;> cases e.symm.trans h
  | call nnn => rcases execCall_cases nnn s with ⟨_, e⟩ | ⟨_, e⟩ <;> cases e.symm.trans h
  | ldVxK x =>
    rcases execLdVxK_cases x s with ⟨_, e⟩ | ⟨_, _, ⟨_, _, e⟩ | ⟨_, e⟩⟩ <;> cases e.symm.trans h
  | skp x => simp only [exec, execSkp] at h; split at h <;> cases h
  | sknp x => simp only [exec, execSknp] at h; split at h <;> cases h
  | ldF x => simp only [exec, execLdF] at h; split at h <;> cases h
  | drw x y n => simp only [exec, execDrw] at h; split at h <;> cases h
  | ldB x => simp only [exec, execLdB] at h; split at h <;> cases h
  | storeRegs x => simp only [exec, execStoreRegs] at h; split at h <;> cases h
  | loadRegs x => simp only [exec, execLoadRegs] at h; split at h <;> cases h
  | _ => cases h

end Sys2Proof.Machine
end

