-- ==== Sys2Proof/Laws/Frame.lean ====
section
/-! SUPPORT. The frames of the shared updates, and what the host's operations do. -/

namespace Sys2Proof.Machine

/-- Nothing changed. -/
theorem Frame.refl (c : Changes) (s : State) : Frame c s s where
  regs _ _ := rfl
  index _ := rfl
  pc _ := rfl
  dt _ := rfl
  st _ := rfl
  mem _ _ := rfl
  stack _ := rfl
  display _ := ⟨fun _ _ => rfl, rfl⟩
  rnd _ := rfl
  keyPick _ := rfl
  keys _ := rfl
  fault := rfl
  params := rfl

theorem Frame.setReg (s : State) (x : RegIdx) (b : Byte) :
    Frame { regs := [x] } s (s.setReg x b) :=
  { Frame.refl _ s with
    regs := fun _ hr => State.reg_setReg_other s b (by simpa using hr) }

theorem Frame.setResultFlag (s : State) (x : RegIdx) (b f : Byte) :
    Frame { regs := [x, 15] } s (s.setResultFlag x b f) :=
  { Frame.refl _ s with
    regs := fun r hr => by
      simp only [List.mem_cons, List.not_mem_nil, or_false, not_or] at hr
      rw [State.reg_setResultFlag, if_neg hr.2, if_neg hr.1] }

theorem Frame.setPc (s : State) (w : Word) : Frame { pc := true } s (s.setPc w) :=
  { Frame.refl _ s with pc := fun h => nomatch h }

theorem Frame.skipIf (s : State) (c : Bool) : Frame { pc := true } s (s.skipIf c) := by
  rw [State.skipIf_eq]; exact Frame.setPc s _

theorem Frame.setIndex (s : State) (w : Word) : Frame { index := true } s (s.setIndex w) :=
  { Frame.refl _ s with index := fun h => nomatch h }

/-- Bytes stored from `a` upwards: every byte outside them reads as before. -/
theorem Frame.writeBytes (s : State) (a : Nat) (bs : List Byte) :
    Frame { storeFrom := a, storeLen := bs.length } s
      { s with mem := s.mem.writeBytes a bs } :=
  { Frame.refl _ s with mem := fun _ h => Memory.read_writeBytes_outside h }

theorem Frame.storeBlock (s : State) (a k : Nat) (hk : k ≤ 16) :
    Frame { storeFrom := a, storeLen := k } s (State.storeBlock a k s) := by
  have hm : ∀ a', ¬ (a ≤ a' ∧ a' < a + k) → (State.storeBlock a k s).memRead a' = s.memRead a' :=
    fun a' h => by rw [State.memRead_storeBlock a k s hk, if_neg h]
  rw [State.storeBlock_eq] at hm ⊢
  exact { Frame.refl _ s with mem := hm }

theorem Frame.tick (s : State) : Frame { dt := true, st := true } s s.tick :=
  { Frame.refl _ s with dt := (fun h => nomatch h), st := (fun h => nomatch h) }

/-! ### Render -/

/-- Element `k * c + j` of a list joined from pieces of `c` elements is element `j` of piece `k`. -/
theorem getElem?_flatMap_of_length {α β : Type} {c : Nat} {f : α → List β}
    (hf : ∀ a, (f a).length = c) (l : List α) {k j : Nat} (hk : k < l.length) (hj : j < c) :
    (l.flatMap f)[k * c + j]? = (f l[k])[j]? := by
  induction l generalizing k with
  | nil => simp at hk
  | cons a l ih =>
    rw [List.flatMap_cons]
    cases k with
    | zero => rw [List.getElem?_append_left (by rw [hf]; omega)]; simp
    | succ k =>
      have e : (k + 1) * c + j = c + (k * c + j) := by ring
      rw [e, List.getElem?_append_right (by rw [hf]; omega), hf, Nat.add_sub_cancel_left]
      exact ih (by simpa using hk)

theorem length_flatMap_of_length {α β : Type} {c : Nat} {f : α → List β}
    (hf : ∀ a, (f a).length = c) (l : List α) : (l.flatMap f).length = l.length * c := by
  induction l with
  | nil => simp
  | cons a l ih => rw [List.flatMap_cons, List.length_append, hf, ih, List.length_cons]; ring

theorem length_pixelChannels (p : Params) (b : Bool) : (pixelChannels p b).length = 4 := by
  cases b <;> simp [pixelChannels]

theorem length_renderRow (s : State) (y : Fin 32) : (renderRow s y).length = 256 := by
  rw [renderRow, length_flatMap_of_length (fun _ => length_pixelChannels _ _), List.length_finRange]

end Sys2Proof.Machine
end

