-- ==== Sys2Proof/Laws/PerInstr.lean ====
section
/-! SUPPORT. Statements about every instruction as syntax, one lemma per constructor. -/

namespace Sys2Proof.Laws.FitsItsRow

/-- The instruction's word has the fixed bits of a row of the opcode table (30_encoding.md R90),
whatever its fields hold. -/
def Statement (i : Instr) : Prop := ∃ r ∈ opcodeRows, encode i &&& r.mask = r.pattern

theorem of_addr {c : BitVec 4} {nnn : Addr12} {p : Word} (hp : p.toNat = c.toNat * 4096) :
    wordAddr c nnn &&& 0xF000 = p := by
  have e := toNat_wordAddr c nnn
  have := nnn.isLt
  apply BitVec.eq_of_toNat_eq
  rw [toNat_and_maskF000, e, hp]
  omega

theorem of_regImm {c : BitVec 4} {x : RegIdx} {kk : Byte} {p : Word}
    (hp : p.toNat = c.toNat * 4096) : wordRegImm c x kk &&& 0xF000 = p := by
  have e := toNat_wordRegImm c x kk
  have := kk.isLt
  have := x.isLt
  apply BitVec.eq_of_toNat_eq
  rw [toNat_and_maskF000, e, hp]
  omega

theorem of_sub {c : BitVec 4} {x : RegIdx} {kk : Byte} {p : Word}
    (hp : p.toNat = c.toNat * 4096 + kk.toNat) : wordRegImm c x kk &&& 0xF0FF = p := by
  have e := toNat_wordRegImm c x kk
  have := kk.isLt
  have := x.isLt
  apply BitVec.eq_of_toNat_eq
  rw [toNat_and_maskF0FF, e, hp]
  omega

theorem of_regReg {c f : BitVec 4} {x y : RegIdx} {p : Word}
    (hp : p.toNat = c.toNat * 4096 + f.toNat) : wordRegReg c x y f &&& 0xF00F = p := by
  have e := toNat_wordRegReg c x y f
  have := f.isLt
  have := x.isLt
  have := y.isLt
  apply BitVec.eq_of_toNat_eq
  rw [toNat_and_maskF00F, e, hp]
  omega

/-- Every row of the table by its place in it. -/
theorem row_mem (k : Nat) (hk : k < opcodeRows.length) : opcodeRows[k] ∈ opcodeRows :=
  List.getElem_mem hk

theorem cls : Statement .cls :=
  ⟨_, row_mem 0 (by decide), by decide⟩
theorem ret : Statement .ret :=
  ⟨_, row_mem 1 (by decide), by decide⟩
theorem jp (n : Addr12) : Statement (.jp n) :=
  ⟨_, row_mem 2 (by decide), of_addr rfl⟩
theorem call (n : Addr12) : Statement (.call n) :=
  ⟨_, row_mem 3 (by decide), of_addr rfl⟩
theorem seImm (x : RegIdx) (kk : Byte) : Statement (.seImm x kk) :=
  ⟨_, row_mem 4 (by decide), of_regImm rfl⟩
theorem sneImm (x : RegIdx) (kk : Byte) : Statement (.sneImm x kk) :=
  ⟨_, row_mem 5 (by decide), of_regImm rfl⟩
theorem seReg (x y : RegIdx) : Statement (.seReg x y) :=
  ⟨_, row_mem 6 (by decide), of_regReg rfl⟩
theorem ldImm (x : RegIdx) (kk : Byte) : Statement (.ldImm x kk) :=
  ⟨_, row_mem 7 (by decide), of_regImm rfl⟩
theorem addImm (x : RegIdx) (kk : Byte) : Statement (.addImm x kk) :=
  ⟨_, row_mem 8 (by decide), of_regImm rfl⟩
theorem ldReg (x y : RegIdx) : Statement (.ldReg x y) :=
  ⟨_, row_mem 9 (by decide), of_regReg rfl⟩
theorem orReg (x y : RegIdx) : Statement (.orReg x y) :=
  ⟨_, row_mem 10 (by decide), of_regReg rfl⟩
theorem andReg (x y : RegIdx) : Statement (.andReg x y) :=
  ⟨_, row_mem 11 (by decide), of_regReg rfl⟩
theorem xorReg (x y : RegIdx) : Statement (.xorReg x y) :=
  ⟨_, row_mem 12 (by decide), of_regReg rfl⟩
theorem addReg (x y : RegIdx) : Statement (.addReg x y) :=
  ⟨_, row_mem 13 (by decide), of_regReg rfl⟩
theorem sub (x y : RegIdx) : Statement (.sub x y) :=
  ⟨_, row_mem 14 (by decide), of_regReg rfl⟩
theorem shr (x y : RegIdx) : Statement (.shr x y) :=
  ⟨_, row_mem 15 (by decide), of_regReg rfl⟩
theorem subn (x y : RegIdx) : Statement (.subn x y) :=
  ⟨_, row_mem 16 (by decide), of_regReg rfl⟩
theorem shl (x y : RegIdx) : Statement (.shl x y) :=
  ⟨_, row_mem 17 (by decide), of_regReg rfl⟩
theorem sneReg (x y : RegIdx) : Statement (.sneReg x y) :=
  ⟨_, row_mem 18 (by decide), of_regReg rfl⟩
theorem ldI (n : Addr12) : Statement (.ldI n) :=
  ⟨_, row_mem 19 (by decide), of_addr rfl⟩
theorem jpV0 (n : Addr12) : Statement (.jpV0 n) :=
  ⟨_, row_mem 20 (by decide), of_addr rfl⟩
theorem rnd (x : RegIdx) (kk : Byte) : Statement (.rnd x kk) :=
  ⟨_, row_mem 21 (by decide), of_regImm rfl⟩
theorem drw (x y : RegIdx) (n : Nat) : Statement (.drw x y n) :=
  ⟨_, row_mem 22 (by decide), by
    have e := toNat_wordRegReg 0xD x y (BitVec.ofNat 4 n)
    have := (BitVec.ofNat 4 n).isLt
    have := x.isLt
    have := y.isLt
    apply BitVec.eq_of_toNat_eq
    show (wordRegReg 0xD x y (BitVec.ofNat 4 n) &&& 0xF000).toNat = 0xD000
    rw [toNat_and_maskF000, e]
    simp only [BitVec.reduceToNat]
    omega⟩
theorem skp (x : RegIdx) : Statement (.skp x) :=
  ⟨_, row_mem 23 (by decide), of_sub rfl⟩
theorem sknp (x : RegIdx) : Statement (.sknp x) :=
  ⟨_, row_mem 24 (by decide), of_sub rfl⟩
theorem ldVxDt (x : RegIdx) : Statement (.ldVxDt x) :=
  ⟨_, row_mem 25 (by decide), of_sub rfl⟩
theorem ldVxK (x : RegIdx) : Statement (.ldVxK x) :=
  ⟨_, row_mem 26 (by decide), of_sub rfl⟩
theorem ldDtVx (x : RegIdx) : Statement (.ldDtVx x) :=
  ⟨_, row_mem 27 (by decide), of_sub rfl⟩
theorem ldStVx (x : RegIdx) : Statement (.ldStVx x) :=
  ⟨_, row_mem 28 (by decide), of_sub rfl⟩
theorem addI (x : RegIdx) : Statement (.addI x) :=
  ⟨_, row_mem 29 (by decide), of_sub rfl⟩
theorem ldF (x : RegIdx) : Statement (.ldF x) :=
  ⟨_, row_mem 30 (by decide), of_sub rfl⟩
theorem ldB (x : RegIdx) : Statement (.ldB x) :=
  ⟨_, row_mem 31 (by decide), of_sub rfl⟩
theorem storeRegs (x : RegIdx) : Statement (.storeRegs x) :=
  ⟨_, row_mem 32 (by decide), of_sub rfl⟩
theorem loadRegs (x : RegIdx) : Statement (.loadRegs x) :=
  ⟨_, row_mem 33 (by decide), of_sub rfl⟩

end Sys2Proof.Laws.FitsItsRow
end

