-- ==== Sys2Proof/Tests/Slice0.lean ====
section
/-! SUPPORT. The model's own tests: words written out from 30_encoding.md R90, the vectors of
95_test_vectors.md (named W… and V-… in the comments), and a witness for each hypothesis of the
obligations. -/

namespace Sys2Proof.Tests

open Sys2Proof Sys2Proof.Machine

/-! ### Helpers -/

/-- The reset state with an instruction word at PC. -/
def ready (op : Word) : State := State.reset.withFetchWord 16 op.toNat

/-- A byte list stored at an address. -/
def stored (s : State) (a : Nat) (bs : List Byte) : State := { s with mem := s.mem.writeBytes a bs }

/-- What a next state shows; none on a fault or a refusal. -/
def shows {α : Type} (f : State → α) : Host.Outcome State Fault Refusal → Option α
  | .next t => some (f t)
  | .fault _ => none
  | .refused _ => none

/-- The fault of an outcome. -/
def faultOf : Host.Outcome State Fault Refusal → Option Fault
  | .next _ => none
  | .fault f => some f
  | .refused _ => none

/-- The outcome is a next state. -/
def isNext (o : Host.Outcome State Fault Refusal) : Bool := (shows (fun _ => ()) o).isSome

theorem isNext_exists {o : Host.Outcome State Fault Refusal} (h : isNext o = true) :
    ∃ t, o = .next t := by
  cases o with
  | next t => exact ⟨t, rfl⟩
  | fault _ => cases h
  | refused _ => cases h

theorem faultOf_eq {o : Host.Outcome State Fault Refusal} {f : Fault} (h : faultOf o = some f) :
    o = .fault f := by
  cases o with
  | next _ => cases h
  | fault _ => cases h; rfl
  | refused _ => cases h



/-! ### Well-formedness -/

/-- 30_encoding.md R81: the row count of DRW has 4 bits. -/
theorem test_wellFormed_refuses_sixteen_rows : (Instr.drw 0 0 16).wellFormed = false := by decide

/-- The widest row count that fits. -/
theorem test_wellFormed_admits_fifteen_rows : (Instr.drw 15 15 15).wellFormed = true := by decide

/-! ### Decoding: every row of R90, its word written out bit by bit from the row's encoding column -/

theorem test_decode_system :
    decodeWord 0b0000000011100000 = some .cls ∧
    decodeWord 0b0000000011101110 = some .ret := by decide

theorem test_decode_flow :
    decodeWord 0b0001001101000101 = some (.jp 0x345) ∧
    decodeWord 0b0010001101000101 = some (.call 0x345) ∧
    decodeWord 0b1011001101000101 = some (.jpV0 0x345) := by decide

theorem test_decode_skip :
    decodeWord 0b0011101001000010 = some (.seImm 0xA 0x42) ∧
    decodeWord 0b0100101001000010 = some (.sneImm 0xA 0x42) ∧
    decodeWord 0b0101000100100000 = some (.seReg 1 2) ∧
    decodeWord 0b1001000100100000 = some (.sneReg 1 2) := by decide

theorem test_decode_immediate :
    decodeWord 0b0110101001000010 = some (.ldImm 0xA 0x42) ∧
    decodeWord 0b0111101011111111 = some (.addImm 0xA 0xFF) := by decide

theorem test_decode_alu :
    decodeWord 0b1000000100100000 = some (.ldReg 1 2) ∧
    decodeWord 0b1000000100100001 = some (.orReg 1 2) ∧
    decodeWord 0b1000000100100010 = some (.andReg 1 2) ∧
    decodeWord 0b1000000100100011 = some (.xorReg 1 2) ∧
    decodeWord 0b1000000100100100 = some (.addReg 1 2) ∧
    decodeWord 0b1000000100100101 = some (.sub 1 2) ∧
    decodeWord 0b1000000100100110 = some (.shr 1 2) ∧
    decodeWord 0b1000000100100111 = some (.subn 1 2) ∧
    decodeWord 0b1000000100101110 = some (.shl 1 2) := by decide

theorem test_decode_index :
    decodeWord 0b1010001101000101 = some (.ldI 0x345) ∧
    decodeWord 0b1111000100101001 = some (.ldF 1) ∧
    decodeWord 0b1111000100011110 = some (.addI 1) := by decide

theorem test_decode_rnd_draw :
    decodeWord 0b1100001111110000 = some (.rnd 3 0xF0) ∧
    decodeWord 0b1101000100100101 = some (.drw 1 2 5) := by decide

theorem test_decode_keys :
    decodeWord 0b1110001010011110 = some (.skp 2) ∧
    decodeWord 0b1110001010100001 = some (.sknp 2) ∧
    decodeWord 0b1111001100001010 = some (.ldVxK 3) := by decide

theorem test_decode_timers :
    decodeWord 0b1111010000000111 = some (.ldVxDt 4) ∧
    decodeWord 0b1111010000010101 = some (.ldDtVx 4) ∧
    decodeWord 0b1111010000011000 = some (.ldStVx 4) := by decide

theorem test_decode_memory :
    decodeWord 0b1111000100110011 = some (.ldB 1) ∧
    decodeWord 0b1111001101010101 = some (.storeRegs 3) ∧
    decodeWord 0b1111001001100101 = some (.loadRegs 2) := by decide

/-- V-DEC-1 to V-DEC-8, V-CF-17, V-ALU-18: unknown words. -/
theorem test_decode_unknown :
    [0x0000, 0x0123, 0x00E1, 0x0E00, 0x5121, 0x8008, 0x800F, 0x8128, 0x812F, 0x9001, 0xE000, 0xE09F,
      0xF000, 0xF0FF, 0xF00B].all (fun w => decodeWord w == none) = true := by decide

/-- Bytes are read big-endian, and a single byte is no instruction. -/
theorem test_decode_bytes :
    decode [0x12, 0x34, 0x56] = .decoded (.jp 0x234) [0x56] ∧ decode [0x12] = .tooShort ∧
    decode [0x50, 0x01] = .unknownOpcode 0x5001 := by decide

theorem test_decodeTableWord :
    decodeTableWord 16 0xD125 = some (.drw 1 2 5) ∧ decodeTableWord 16 0x5121 = none := by decide

/-! ### One step on the derived vectors -/

/-- V-CF-1 -/
theorem test_jp : shows (fun t => t.pc)
    (step (ready 0x1345)) = some 0x345 := by decide

/-- V-CF-2 -/
theorem test_call : shows (fun t => (t.stack, t.pc))
    (step (ready 0x2400)) = some ([0x202], 0x400) := by decide

/-- V-CF-16, W9 -/
theorem test_call_overflow : faultOf (step ((ready 0x2200).setStack (List.replicate 16 0x202))) =
    some .stackOverflow := by decide

/-- V-CF-3 at 0x200 -/
theorem test_ret : shows (fun t => (t.stack, t.pc))
    (step ((ready 0x00EE).setStack [0x300, 0x204])) = some ([0x300], 0x204) := by decide

/-- V-CF-4 -/
theorem test_ret_underflow : faultOf (step (ready 0x00EE)) =
    some .stackUnderflow := by decide

/-- V-CF-13 -/
theorem test_jpV0 : shows (fun t => t.pc)
    (step ((ready 0xB300).setReg 0 0x10)) = some 0x310 := by decide

/-- V-CF-14: not reduced to 12 bits -/
theorem test_jpV0_past_memory : shows (fun t => t.pc)
    (step ((ready 0xBFFF).setReg 0 0xFF)) = some 0x10FE := by decide

/-- V-CF-5 -/
theorem test_seImm : shows (fun t => t.pc)
    (step ((ready 0x3342).setReg 3 0x42)) = some 0x204 := by decide

/-- V-CF-6 -/
theorem test_seImm_no_skip : shows (fun t => t.pc)
    (step ((ready 0x3342).setReg 3 0x41)) = some 0x202 := by decide

/-- V-CF-7 -/
theorem test_sneImm : shows (fun t => t.pc)
    (step ((ready 0x4342).setReg 3 0x41)) = some 0x204 := by decide

/-- V-CF-8 -/
theorem test_sneImm_no_skip : shows (fun t => t.pc)
    (step ((ready 0x4342).setReg 3 0x42)) = some 0x202 := by decide

/-- V-CF-9 -/
theorem test_seReg : shows (fun t => t.pc)
    (step (((ready 0x5120).setReg 1 7).setReg 2 7)) = some 0x204 := by decide

/-- V-CF-10 -/
theorem test_seReg_no_skip : shows (fun t => t.pc)
    (step (((ready 0x5120).setReg 1 7).setReg 2 8)) = some 0x202 := by decide

/-- V-CF-11 -/
theorem test_sneReg : shows (fun t => t.pc)
    (step (((ready 0x9120).setReg 1 7).setReg 2 8)) = some 0x204 := by decide

/-- V-CF-12 -/
theorem test_sneReg_no_skip : shows (fun t => t.pc)
    (step (((ready 0x9120).setReg 1 7).setReg 2 7)) = some 0x202 := by decide

/-- V-IMM-1 -/
theorem test_ldImm : shows (fun t => (t.reg 0xA, t.pc, t.dt))
    (step ((ready 0x6A42).setDt 3)) = some (0x42, 0x202, 2) := by decide

/-- V-IMM-2: wraps, no flag -/
theorem test_addImm : shows (fun t => (t.reg 0xA, t.reg 0xF))
    (step (((ready 0x7AFF).setReg 0xA 0x02).setReg 0xF 0x55)) = some (0x01, 0x55) := by decide

/-- V-IMM-3 -/
theorem test_addImm_vf : shows (fun t => t.reg 0xF)
    (step ((ready 0x7F01).setReg 0xF 0xFF)) = some 0x00 := by decide

/-- V-ALU-1 -/
theorem test_ldReg : shows (fun t => (t.reg 1, t.reg 2))
    (step (((ready 0x8120).setReg 1 5).setReg 2 9)) = some (9, 9) := by decide

/-- V-ALU-2 -/
theorem test_orReg : shows (fun t => (t.reg 1, t.reg 0xF))
    (step ((((ready 0x8121).setReg 1 0xF0).setReg 2 0x0F).setReg 0xF 0x77)) = some (0xFF, 0x77) := by decide

/-- V-ALU-3 -/
theorem test_andReg : shows (fun t => (t.reg 1, t.reg 0xF))
    (step ((((ready 0x8122).setReg 1 0xF0).setReg 2 0x3C).setReg 0xF 0x77)) = some (0x30, 0x77) := by decide

/-- V-ALU-4 -/
theorem test_xorReg : shows (fun t => (t.reg 1, t.reg 0xF))
    (step ((((ready 0x8123).setReg 1 0xFF).setReg 2 0x0F).setReg 0xF 0x77)) = some (0xF0, 0x77) := by decide

/-- W2 -/
theorem test_addReg : shows (fun t => (t.reg 1, t.reg 0xF))
    (step (((ready 0x8124).setReg 1 0xFF).setReg 2 0x01)) = some (0x00, 1) := by decide

/-- V-ALU-6: the carry is written last -/
theorem test_addReg_vf : shows (fun t => t.reg 0xF)
    (step (((ready 0x8F14).setReg 1 0x02).setReg 0xF 0xFF)) = some 1 := by decide

/-- V-ALU-7: the flag is strict -/
theorem test_sub_equal : shows (fun t => (t.reg 1, t.reg 0xF))
    (step ((((ready 0x8125).setReg 1 0x40).setReg 2 0x40).setReg 0xF 0x55)) = some (0, 0) := by decide

/-- V-ALU-15: VF is read before it is written -/
theorem test_sub_vf_source : shows (fun t => (t.reg 1, t.reg 0xF))
    (step (((ready 0x81F5).setReg 1 0x10).setReg 0xF 0x01)) = some (0x0F, 1) := by decide

/-- V-ALU-9: V2 is ignored -/
theorem test_shr : shows (fun t => (t.reg 1, t.reg 0xF))
    (step ((((ready 0x8126).setReg 1 0x80).setReg 2 0xFF).setReg 0xF 0x55)) = some (0x40, 0) := by decide

/-- V-ALU-10 -/
theorem test_shr_vf : shows (fun t => t.reg 0xF)
    (step ((ready 0x8F06).setReg 0xF 0x02)) = some 0 := by decide

/-- V-ALU-11 -/
theorem test_subn : shows (fun t => (t.reg 1, t.reg 0xF))
    (step (((ready 0x8127).setReg 1 3).setReg 2 5)) = some (2, 1) := by decide

/-- V-ALU-12 -/
theorem test_subn_equal : shows (fun t => (t.reg 1, t.reg 0xF))
    (step ((((ready 0x8127).setReg 1 0x40).setReg 2 0x40).setReg 0xF 0x55)) = some (0, 0) := by decide

/-- V-ALU-13 -/
theorem test_shl : shows (fun t => (t.reg 1, t.reg 0xF))
    (step ((ready 0x812E).setReg 1 0x81)) = some (0x02, 1) := by decide

/-- V-ALU-14 -/
theorem test_shl_clear : shows (fun t => (t.reg 1, t.reg 0xF))
    (step (((ready 0x812E).setReg 1 0x40).setReg 0xF 0x55)) = some (0x80, 0) := by decide

/-- V-IDX-1 -/
theorem test_ldI : shows (fun t => t.i)
    (step (ready 0xA123)) = some 0x123 := by decide

/-- V-IDX-2 -/
theorem test_ldF : shows (fun t => t.i)
    (step ((ready 0xF129).setReg 1 0x0A)) = some 0x082 := by decide

/-- V-IDX-7 -/
theorem test_addI_no_flag : shows (fun t => (t.i, t.reg 0xF))
    (step ((((ready 0xF11E).setReg 1 5).setReg 0xF 0x55).setIndex 0x0FA)) = some (0x0FF, 0) := by decide

/-- V-IDX-9: not reduced to 12 bits -/
theorem test_addI_wide : shows (fun t => (t.i, t.reg 0xF))
    (step (((ready 0xF11E).setReg 1 0xFF).setIndex 0xFFF)) = some (0x10FE, 1) := by decide

/-- V-RND-1 -/
theorem test_rnd : shows (fun t => (t.reg 3, t.rnd))
    (step ({ ready 0xC3F0 with rnd := ⟨[0xA7], 0⟩ })) = some (0xA0, ⟨[], 1⟩) := by decide

/-- V-DRW-1, W6 -/
theorem test_drw_wraps : shows (fun t => ([60, 61, 62, 63, 0, 1, 2, 3, 4, 59].map (fun px => t.pixel px 0), t.reg 0xF, t.dirty))
    (step (stored (((ready 0xD011).setReg 0 60).setIndex 0x300) 0x300 [0xFF])) = some 
      ([true, true, true, true, true, true, true, true, false, false], 0, true) := by decide

/-- V-DRW-9: the second draw, with the first one's pixels set -/
theorem test_drw_collides : shows (fun t => (t.pixel 5 31, t.reg 0xF))
    (step ((stored ((((ready 0xD011).setReg 0 69).setReg 1 31).setIndex 0x300) 0x300 [0x80]).writePixel 5 31 true)) = some (false, 1) := by decide

/-- V-KEY-1 -/
theorem test_skp : shows (fun t => t.pc)
    (step (setKey ((ready 0xE29E).setReg 2 5) 5 true)) = some 0x204 := by decide

/-- V-KEY-3 -/
theorem test_sknp : shows (fun t => t.pc)
    (step ((ready 0xE2A1).setReg 2 5)) = some 0x204 := by decide

/-- V-KEY-4 -/
theorem test_sknp_no_skip : shows (fun t => t.pc)
    (step (setKey ((ready 0xE2A1).setReg 2 5) 5 true)) = some 0x202 := by decide

/-- V-KEY-7: the timers tick during the wait -/
theorem test_ldVxK_waits : shows (fun t => (t.pc, t.reg 3, t.dt, t.st))
    (step (((ready 0xF30A).setDt 2).setSt 1)) = some (0x200, 0, 1, 0) := by decide

/-- V-TMR-1: read before the tick -/
theorem test_ldVxDt : shows (fun t => (t.reg 4, t.dt))
    (step ((ready 0xF407).setDt 7)) = some (7, 6) := by decide

/-- V-TMR-2 -/
theorem test_ldDtVx : shows (fun t => t.dt)
    (step ((ready 0xF415).setReg 4 0x20)) = some 0x1F := by decide

/-- V-TMR-3 -/
theorem test_ldStVx : shows (fun t => (t.st, t.dt))
    (step ((ready 0xF418).setReg 4 0x20)) = some (0x1F, 0) := by decide

/-- V-MEM-3, the last bytes in range -/
theorem test_ldB : shows (fun t => ([0xFFD, 0xFFE, 0xFFF].map t.memRead, t.i))
    (step (((ready 0xF133).setReg 1 123).setIndex 0xFFD)) = some ([1, 2, 3], 0xFFD) := by decide

/-- V-MEM-4 -/
theorem test_ldB_out_of_range : faultOf (step (((ready 0xF133).setReg 1 123).setIndex 0xFFE)) =
    some (.addressOutOfRange 0xFFE 3) := by decide

/-- V-MEM-5 -/
theorem test_storeRegs : shows (fun t => ([0x300, 0x301, 0x302, 0x303, 0x304].map t.memRead, t.i))
    (step (((((((ready 0xF355).setReg 0 1).setReg 1 2).setReg 2 3).setReg 3 4).setReg 4 5).setIndex 0x300)) = some ([1, 2, 3, 4, 0], 0x300) := by decide

/-- V-MEM-6 -/
theorem test_storeRegs_v0 : shows (fun t => [0x300, 0x301].map t.memRead)
    (step ((((ready 0xF055).setReg 0 9).setReg 1 8).setIndex 0x300)) = some [9, 0] := by decide

/-- V-MEM-9 -/
theorem test_loadRegs : shows (fun t => [0, 1, 2, 3].map t.reg)
    (step (stored (((ready 0xF265).setReg 3 0x33).setIndex 0x300) 0x300 [0x0A, 0x0B, 0x0C])) = some [0x0A, 0x0B, 0x0C, 0x33] := by decide

/-- V-MEM-7 -/
theorem test_loadRegs_out_of_range : faultOf (step ((ready 0xFF65).setIndex 0xFF1)) =
    some (.addressOutOfRange 0xFF1 16) := by decide

/-- V-CLS-1, with a pixel set -/
theorem test_cls : shows (fun t => (t.pixel 3 4, t.dirty))
    (step ({ (ready 0x00E0).writePixel 3 4 true with dirty := false })) = some (false, true) := by decide

/-! ### Parameters -/

/-- V-IDX-3, V-IDX-4, V-IDX-6 -/
theorem test_ldF_params :
    faultOf (step ((ready 0xF129).setReg 1 0x10)) = some (.digitOutOfRange 0x10) ∧
    shows (fun t => t.i) (step ({ (ready 0xF129).setReg 1 0x10 with params := { Params.default with glyphDigitOor := .lowNibble } })) = some 0x050 ∧
    shows (fun t => t.i) (step ({ (ready 0xF129).setReg 1 0xFF with params := { Params.default with glyphDigitOor := .unmasked } })) = some 0x54B := by decide

/-- V-KEY-5, V-KEY-6 -/
theorem test_skp_params :
    faultOf (step ((ready 0xE29E).setReg 2 0x10)) = some (.keyIndexOutOfRange 0x10) ∧
    shows (fun t => t.pc) (step ({ setKey ((ready 0xE29E).setReg 2 0x10) 0 true with params := { Params.default with keyIndexOor := .lowNibble } })) = some 0x204 := by decide

/-- V-TMR-7: no tick in the step, one by the host -/
theorem test_ldDtVx_external : shows (fun t => (t.dt, (tickOp t).1.dt))
    (step ({ (ready 0xF415).setReg 4 0x20 with params := { Params.default with tickSource := .external } })) = some (0x20, 0x1F) := by decide

/-- V-KEY-8, and under AnyPressed with a draw that picks the second pressed key -/
theorem test_ldVxK_stores :
    shows (fun t => (t.pc, t.reg 3, t.dt)) (step (setKey (setKey ((ready 0xF30A).setDt 2) 9 true) 3 true)) = some (0x202, 3, 1) ∧
    shows (fun t => t.reg 3) (step ({ setKey (setKey (ready 0xF30A) 9 true) 3 true with
      params := { Params.default with keyWaitChoice := .anyPressed }, keyPick := ⟨[1], 0⟩ })) = some 9 := by decide

/-! ### Fetch, faults, loads and the host -/

/-- V-FLT-1 -/
theorem test_fetch_past_memory : faultOf (step (State.reset.setPc 0xFFF)) =
    some (.addressOutOfRange 0xFFF 2) := by decide

/-- V-FLT-4 -/
theorem test_fetch_odd_pc : shows (fun t => (t.reg 0xA, t.pc))
    (step (stored (State.reset.setPc 0x201) 0x201 [0x6A, 0x07])) = some (7, 0x203) := by decide

/-- V-DRW-6: the fault is recorded and nothing else changes (60_exceptions.md R230). -/
theorem test_fault_is_recorded :
    stepOp ((ready 0xD012).setIndex 0xFFF) =
      ({ (ready 0xD012).setIndex 0xFFF with
          fault := some ⟨.addressOutOfRange 0xFFF 2, some 0x200, some 0xD012⟩ },
        .error (.addressOutOfRange 0xFFF 2)) := by decide

/-- V-FLT-3. -/
theorem test_faulted_state_has_no_step :
    step { State.reset with fault := some ⟨.stackUnderflow, some 0x200, some 0x00EE⟩ } =
      .refused .faultedState := rfl

/-- W8. -/
theorem test_load_program :
    fetch (loadProgram State.reset [0x12, 0x34, 0x56]).1 = some 0x1234 ∧
    (loadProgram State.reset [0x12, 0x34, 0x56]).1.memRead 0x202 = 0x56 := by decide

/-- V-LOAD-2. -/
theorem test_load_program_too_large :
    loadProgram State.reset (List.replicate 3585 0) =
      ({ State.reset with fault := some ⟨.programTooLarge 3585, none, none⟩ },
        .error (.programTooLarge 3585)) := by
  simp only [loadProgram, loadOp, List.length_replicate]
  rfl

/-- V-LOAD-4. -/
theorem test_load_glyph_table_short :
    (loadGlyphTable State.reset (List.replicate 79 0)).2 =
      .error (.glyphTableSizeMismatch 79) := by decide

/-- V-LOAD-5, the last of the 80 bytes. -/
theorem test_load_glyph_table :
    (loadGlyphTable State.reset (List.replicate 79 0 ++ [0x5A])).1.memRead 0x9F = 0x5A := by decide

/-- V-RENDER-2: pixel (0, 1) of row 1, and a 0 pixel beside it. -/
theorem test_render_row :
    (renderRow (State.reset.writePixel 0 1 true) 1).take 8 =
      [0xFF, 0xFF, 0xFF, 0xFF, 0x00, 0x00, 0x00, 0xFF] := by decide

/-- V-HOST-2. -/
theorem test_set_key :
    keyPressed (pressKey State.reset 0xC) 0xC = true ∧
    releaseKey (pressKey State.reset 0xC) 0xC = State.reset := by decide

/-- 60_exceptions.md R220: the codes. -/
theorem test_fault_codes :
    ([.glyphTableSizeMismatch 0, .programTooLarge 0, .stackOverflow, .stackUnderflow,
      .unknownOpcode 0, .addressOutOfRange 0 0, .keyIndexOutOfRange 0,
      .digitOutOfRange 0] : List Fault).map Fault.code = [1, 2, 3, 4, 5, 6, 7, 8] := by decide

/-- withFetchWord makes the very next step run the word, from a state that cannot step too. -/
theorem test_withFetchWord :
    shows State.pc (step (State.reset.withFetchWord 16 0x1345)) = some 0x345 ∧
    shows State.pc (step ({ State.reset.setPc 0xFFF with
      fault := some ⟨.stackUnderflow, none, none⟩ }.withFetchWord 16 0x1345)) = some 0x345 := by
  decide

/-- A zero byte stored leaves no entry: equal memories are equal data. -/
theorem test_memory_canonical :
    Memory.write [(0x300, 0x05)] 0x300 0 = [] ∧
    Memory.write [(0x300, 0x05)] 0x2FF 7 = [(0x2FF, 7), (0x300, 0x05)] := by decide

/-! ### Witnesses: for each obligation with hypotheses, a concrete state and operands that meet them,
clause by clause, at the ends of the ranges. `exec` runs after the fetch, so a state stands for one
whose PC is already advanced. -/

/-- A state in which the timer tick comes from the host. -/
def external : State := { State.reset with params := { Params.default with tickSource := .external } }

/-- A state with a fault recorded. -/
def faulted : State := { State.reset with fault := some ⟨.stackUnderflow, some 0x200, some 0x00EE⟩ }

/-- A state whose register V1 holds `b`. -/
def withV1 (b : Byte) : State := State.reset.setReg 1 b

/-- A state with `n` return addresses. -/
def withStack (n : Nat) : State := State.reset.setStack (List.replicate n 0x202)

/-- A state whose word at 0xFFE, the last fetch address, is `op`, with PC there. -/
def readyLast (op : Word) : State := (State.reset.setPc 0xFFE).withFetchWord 16 op.toNat

theorem witness_DecodeOfEncodeIsInstruction : (Instr.drw 15 15 15).wellFormed = true := by decide

theorem witness_EncodeOfDecodeIsWord : decodeWord 0xDFFF = some (.drw 15 15 15) := by decide

theorem witness_OpcodeRowsNeverOverlap :
    decodeWord 0x8008 = none ∧
    ∃ r ∈ opcodeRows, (0xF165 : Word) &&& r.mask = r.pattern := by
  refine ⟨by decide, opcodeRows[33], List.getElem_mem _, by decide⟩

theorem witness_UnknownWordsAreTheListedOnes :
    [0x0FFF, 0x5001, 0x900F, 0x8008, 0x800D, 0x800F, 0xE09F, 0xF066].all
      (fun w => decodeWord w == none) = true ∧
    [0x1000, 0x5000, 0x8007, 0x800E, 0xE09E, 0xF065].all
      (fun w => (decodeWord w).isSome) = true := by decide

theorem witness_StepRunsTheDecodedInstruction_next :
    (readyLast 0xD120).fault = none ∧ (readyLast 0xD120).pc.toNat ≤ 0xFFE ∧
    decode [(readyLast 0xD120).memRead 0xFFE, (readyLast 0xD120).memRead 0xFFF] =
      .decoded (.drw 1 2 0) [] ∧
    isNext (exec (.drw 1 2 0) ((readyLast 0xD120).setPc 0x1000)) = true ∧
    (readyLast 0xD120).params.tickSource = .perStep ∧ external.params.tickSource = .external := by
  decide

theorem witness_StepRunsTheDecodedInstruction_fault :
    decode [(readyLast 0x00EE).memRead 0xFFE, (readyLast 0x00EE).memRead 0xFFF] = .decoded .ret [] ∧
    exec .ret ((readyLast 0x00EE).setPc 0x1000) = .fault .stackUnderflow :=
  ⟨by decide, faultOf_eq (by decide)⟩

theorem witness_FetchAndDecodeFault :
    State.reset.fault = none ∧ 0xFFE < (State.reset.setPc 0xFFF).pc.toNat ∧
    (State.reset.setPc 0xFFE).pc.toNat ≤ 0xFFE ∧
    (0x0000 : Word).toNat = (State.reset.memRead 0xFFE).toNat * 256 + (State.reset.memRead 0xFFF).toNat ∧
    decodeWord 0x0000 = none := by decide

theorem witness_StepIsRefusedExactlyWhenFaulted :
    faulted.fault ≠ none ∧ ∃ r, step faulted = .refused r := ⟨by decide, _, rfl⟩

theorem witness_InstructionsRaiseOnlyTheirOwnFault :
    exec (.call 0x300) (withStack 16) = .fault .stackOverflow ∧
    exec .ret (withStack 0) = .fault .stackUnderflow ∧
    exec (.drw 1 2 1) (State.reset.setIndex 0x1000) = .fault (.addressOutOfRange 0x1000 1) ∧
    exec (.ldB 1) (State.reset.setIndex 0xFFE) = .fault (.addressOutOfRange 0xFFE 3) ∧
    exec (.storeRegs 15) (State.reset.setIndex 0xFF1) = .fault (.addressOutOfRange 0xFF1 16) ∧
    exec (.loadRegs 0) (State.reset.setIndex 0x1000) = .fault (.addressOutOfRange 0x1000 1) ∧
    exec (.skp 1) (withV1 16) = .fault (.keyIndexOutOfRange 16) ∧
    exec (.sknp 1) (withV1 16) = .fault (.keyIndexOutOfRange 16) ∧
    exec (.ldF 1) (withV1 16) = .fault (.digitOutOfRange 16) := by
  refine ⟨?_, ?_, ?_, ?_, ?_, ?_, ?_, ?_, ?_⟩ <;> exact faultOf_eq (by decide)

theorem witness_FaultedStepRollsBackAndRecords :
    step (State.reset.setPc 0xFFF) = .fault (.addressOutOfRange 0xFFF 2) ∧
    step (readyLast 0x00EE) = .fault .stackUnderflow :=
  ⟨faultOf_eq (by decide), faultOf_eq (by decide)⟩

theorem witness_FaultedStateIsTerminal : faulted.fault ≠ none := by decide

theorem witness_StepKeepsInvariant :
    (ready 0xF155).Inv ∧ ∃ t, step (ready 0xF155) = .next t :=
  ⟨⟨by decide, by decide, fun _ h => (nomatch h), by decide⟩, isNext_exists (by decide)⟩

theorem witness_SessionKeepsInvariant : ((withStack 16).setPc 0x10FE).Inv :=
  ⟨by decide, by decide, fun a h => by rw [List.eq_of_mem_replicate h]; decide, by decide⟩

/-- One word for each arm of the statement, from reset with one return address. -/
theorem witness_PcAfterStep :
    [0x1345, 0x2345, 0x00EE, 0xBFFF, 0x3000, 0x4000, 0x5010, 0x9010, 0xE19E, 0xE1A1, 0xF10A,
      0x6A42].all (fun w =>
        let s := (ready w).setStack [0x300]
        fetch s == some w && (decodeWord w).isSome && isNext (step s)) = true ∧
    (∀ k, (ready 0xF10A).key k = false) ∧
    ((∃ k, (setKey (ready 0xF10A) 15 true).key k = true) ∧
      isNext (step (setKey (ready 0xF10A) 15 true)) = true) := by decide

theorem witness_VfIsWrittenOnlyAsFlagOrDestination :
    (isNext (exec (.addReg 15 15) State.reset) = true ∧ writesFlag (.addReg 15 15) = true) ∧
    (isNext (exec (.loadRegs 14) State.reset) = true ∧ writesFlag (.loadRegs 14) = false ∧
      namesDestination (.loadRegs 14) 15 = false) := by decide

theorem witness_RegistersChangeOnlyAsDestinations :
    isNext (exec (.loadRegs 13) State.reset) = true ∧ namesDestination (.loadRegs 13) 14 = false := by
  decide

theorem witness_MemoryAndStackWriters : isNext (exec (.loadRegs 15) State.reset) = true := by decide

theorem witness_DisplayWriters :
    isNext (exec (.drw 1 2 15) (State.reset.writePixel 0 0 true)) = true ∧
    (State.reset.writePixel 0 0 true).dirty = true ∧
    isNext (exec (.storeRegs 15) State.reset) = true := by decide

theorem witness_StepKeepsKeysAndDrawsOnlyForRnd :
    (fetch (ready 0xC3F0) = some 0xC3F0 ∧ decodeWord 0xC3F0 = some (.rnd 3 0xF0) ∧
      isNext (step (ready 0xC3F0)) = true) ∧
    (fetch (ready 0xF355) = some 0xF355 ∧ decodeWord 0xF355 = some (.storeRegs 3) ∧
      isNext (step (ready 0xF355)) = true) := by decide

theorem witness_TimersCountDownOncePerStep :
    (fetch (ready 0xF115) = some 0xF115 ∧ decodeWord 0xF115 = some (.ldDtVx 1) ∧
      isNext (step (ready 0xF115)) = true ∧ (ready 0xF115).params.tickSource = .perStep) ∧
    (fetch (ready 0xF118) = some 0xF118 ∧ decodeWord 0xF118 = some (.ldStVx 1) ∧
      isNext (step (ready 0xF118)) = true) ∧
    (decodeWord 0xF107 = some (.ldVxDt 1) ∧ isNext (step (ready 0xF107)) = true) ∧
    isNext (step (external.withFetchWord 16 0xF115)) = true := by decide

theorem witness_KeysAreReadOnlyByKeyInstructions :
    isNext (exec (.drw 1 2 3) State.reset) = true ∧ exec .ret State.reset = .fault .stackUnderflow :=
  ⟨by decide, faultOf_eq (by decide)⟩

theorem witness_SoundTimerAndDirtyFlagAreNeverRead :
    isNext (exec .cls State.reset) = true ∧ isNext (exec (.ldStVx 1) State.reset) = true ∧
    exec .ret State.reset = .fault .stackUnderflow :=
  ⟨by decide, by decide, faultOf_eq (by decide)⟩

theorem witness_CallPushesReturnAddress :
    (withStack 15).stack.length < 16 ∧ 16 ≤ (withStack 16).stack.length := by decide

theorem witness_ReturnPopsNewestAddress :
    (withStack 1).stack = [] ++ [0x202] ∧ (withStack 16).stack = List.replicate 15 0x202 ++ [0x202] ∧
    (withStack 0).stack = [] := by decide

theorem witness_ReturnUndoesCall : ∃ t : State, exec (.call 0x300) (withStack 15) = .next t ∧
    (t.setReg 0 1).stack = t.stack := ⟨_, rfl, rfl⟩

theorem witness_SkipsOnImmediate :
    (withV1 0x42).reg 1 = 0x42 ∧ (withV1 0x41).reg 1 ≠ 0x42 := by decide

theorem witness_SkipsOnRegisters :
    (withV1 7).reg 1 = (withV1 7).reg 1 ∧ (withV1 7).reg 1 ≠ (withV1 7).reg 2 ∧
    (1 : BitVec 4) ≠ 0 := by decide

theorem witness_GlyphAddressOfDigit :
    ((withV1 15).reg 1).toNat ≤ 15 ∧
    (15 < ((withV1 16).reg 1).toNat ∧ (withV1 16).params.glyphDigitOor = .fault) ∧
    (15 < ((withV1 16).reg 1).toNat ∧
      ({ withV1 16 with params := { Params.default with glyphDigitOor := .lowNibble } } :
        State).params.glyphDigitOor = .lowNibble) ∧
    ({ withV1 255 with params := { Params.default with glyphDigitOor := .unmasked } } :
      State).params.glyphDigitOor = .unmasked := by decide

theorem witness_RandomByteIsMasked :
    ({ State.reset with rnd := ⟨[0xA7, 0x11], 0⟩ } : State).rnd.supplied = 0xA7 :: [0x11] := rfl

/-- A sprite of one bit at the bottom right corner, from the last byte of memory. -/
def spriteState : State := stored ((((State.reset.setReg 1 63).setReg 2 31).setIndex 0xFFF)) 0xFFF [0x80]

theorem witness_DrawInvertsCoveredPixels :
    (Instr.drw 1 2 1).wellFormed = true ∧ spriteState.i.toNat + 1 - 1 ≤ 0xFFF ∧
    (Instr.drw 1 2 0).wellFormed = true := by decide

theorem witness_DrawInvertsCoveredPixels_covered :
    spriteCovers (spriteState.writePixel 63 31 true) 1 2 1 63 31 ∧
    (spriteState.writePixel 63 31 true).pixel 63 31 = true :=
  ⟨⟨0, 0, by decide⟩, by decide⟩

theorem witness_DrawInvertsCoveredPixels_uncovered :
    ¬ spriteCovers spriteState 1 2 0 63 31 ∧
    ∀ px py, spriteCovers spriteState 1 2 0 px py → spriteState.pixel px py = false :=
  ⟨fun ⟨_, _, h, _⟩ => Nat.not_lt_zero _ h, fun _ _ ⟨_, _, h, _⟩ => absurd h (Nat.not_lt_zero _)⟩

theorem witness_DrawBeyondMemoryFaults :
    1 ≤ 1 ∧ 0xFFF < (State.reset.setIndex 0x1000).i.toNat + 1 - 1 ∧
    0xFFF < spriteState.i.toNat + 2 - 1 := by decide

theorem witness_DrawTwiceRestoresPixels :
    (Instr.drw 1 2 1).wellFormed = true ∧ (1 : RegIdx) ≠ 15 ∧ (2 : RegIdx) ≠ 15 ∧
    ∃ t, exec (.drw 1 2 1) spriteState = .next t :=
  ⟨by decide, by decide, by decide, isNext_exists (by decide)⟩

theorem witness_KeySkips :
    ((15 : Fin 16).val = ((withV1 15).reg 1).toNat % 16 ∧ ((withV1 15).reg 1).toNat ≤ 15 ∧
      (setKey (withV1 15) 15 true).key 15 = true ∧ (withV1 15).key 15 = false) ∧
    ((0 : Fin 16).val = ((withV1 16).reg 1).toNat % 16 ∧
      ({ withV1 16 with params := { Params.default with keyIndexOor := .lowNibble } } :
        State).params.keyIndexOor = .lowNibble) ∧
    (15 < ((withV1 16).reg 1).toNat ∧ (withV1 16).params.keyIndexOor = .fault) := by decide

theorem witness_KeyWaitStoresPressedKey :
    (∀ k, State.reset.key k = false) ∧ (∃ k, (pressKey State.reset 15).key k = true) ∧
    State.reset.params.keyWaitChoice = .lowest := by decide

theorem witness_BcdStoresThreeDigits :
    (State.reset.setIndex 0xFFD).i.toNat + 2 ≤ 0xFFF ∧
    0xFFF < (State.reset.setIndex 0xFFE).i.toNat + 2 := by decide

theorem witness_BlockStoreWritesV0ToVx :
    (State.reset.setIndex 0xFF0).i.toNat + (15 : RegIdx).val ≤ 0xFFF ∧ (15 : RegIdx) ≤ 15 ∧
    0xFFF < (State.reset.setIndex 0xFF1).i.toNat + (15 : RegIdx).val := by decide

theorem witness_BlockLoadReadsV0ToVx :
    (State.reset.setIndex 0xFFF).i.toNat + (0 : RegIdx).val ≤ 0xFFF ∧ (0 : RegIdx) ≤ 0 ∧
    0xFFF < (State.reset.setIndex 0x1000).i.toNat + (0 : RegIdx).val := by decide

theorem witness_BlockLoadUndoesBlockStore : ∃ t : State,
    exec (.storeRegs 15) ((withV1 5).setIndex 0xFF0) = .next t ∧
    (t.setReg 1 9).i = t.i ∧ (t.setReg 1 9).mem = t.mem := by
  obtain ⟨t, h⟩ : ∃ t, exec (.storeRegs 15) ((withV1 5).setIndex 0xFF0) = .next t :=
    isNext_exists (by decide)
  exact ⟨t, h, rfl, rfl⟩

theorem witness_StoredWordIsFetched :
    (∃ t, exec (.storeRegs 1) ((State.reset.setIndex 0xFFE).setPc 0xFFE) = .next t) ∧
    1 ≤ (1 : RegIdx).val ∧
    ((State.reset.setIndex 0xFFE).setPc 0xFFE).i = ((State.reset.setIndex 0xFFE).setPc 0xFFE).pc :=
  ⟨isNext_exists (by decide), by decide, rfl⟩

theorem witness_ProgramLoadWritesItsBytes :
    State.reset.fault = none ∧ (List.replicate 3584 (0x12 : Byte)).length ≤ 3584 ∧
    ([0x12, 0x34] : List Byte)[1]? = some 0x34 ∧ 3584 < (List.replicate 3585 (0x12 : Byte)).length := by
  simp only [List.length_replicate]
  decide

theorem witness_GlyphLoadWritesItsBytes :
    State.reset.fault = none ∧ (List.replicate 80 (0xF0 : Byte)).length = 80 ∧
    (List.replicate 80 (0xF0 : Byte))[79]? = some 0xF0 ∧
    (List.replicate 79 (0xF0 : Byte)).length ≠ 80 ∧
    (List.replicate 81 (0xF0 : Byte)).length ≠ 80 := by decide

theorem witness_LoadFaultsAreRecorded :
    State.reset.fault = none ∧ 3584 < (List.replicate 3585 (0 : Byte)).length ∧
    ([] : List Byte).length ≠ 80 ∧ faulted.fault ≠ none := by
  simp only [List.length_replicate]
  decide

theorem witness_HostReadsAndKeyWrites :
    (0 : Fin 16) ≠ 15 ∧ (external.params.tickSource = .external ∧ external.fault = none) ∧
    State.reset.params.tickSource = .perStep := by decide

end Sys2Proof.Tests
end

section
/-! What each meaning that can fault needs for a next state, and which state that is. Every other
meaning answers its one next state by definition. -/

namespace Sys2Proof.Machine

variable {s t : State}

theorem execRet_eq_next :
    execRet s = .next t ↔ ∃ a older, s.stack = older ++ [a] ∧ t = (s.setStack older).setPc a := by
  unfold execRet
  cases h : stackPop s.stack with
  | none => simp [raise, stackPop_eq_none.1 h]
  | some p => simp [stackPop_eq_some.1 h, eq_comm, and_comm]

theorem execCall_eq_next {nnn : Addr12} :
    execCall nnn s = .next t ↔ s.stack.length < 16 ∧
      t = (s.setStack (s.stack ++ [s.pc])).setPc (addrOperand nnn) := by
  rcases execCall_cases nnn s with ⟨hl, e⟩ | ⟨hl, e⟩
  · simp [e, hl, eq_comm]
  · simp [e, Nat.not_lt.2 hl]

theorem execSkp_eq_next {x : RegIdx} :
    execSkp x s = .next t ↔ ∃ k, keyIndex s.params (s.reg x) = some k ∧ t = s.skipIf (s.key k) := by
  unfold execSkp
  cases keyIndex s.params (s.reg x) <;> simp [raise, eq_comm]

theorem execSknp_eq_next {x : RegIdx} :
    execSknp x s = .next t ↔
      ∃ k, keyIndex s.params (s.reg x) = some k ∧ t = s.skipIf (!s.key k) := by
  unfold execSknp
  cases keyIndex s.params (s.reg x) <;> simp [raise, eq_comm]

theorem execLdF_eq_next {x : RegIdx} :
    execLdF x s = .next t ↔
      ∃ d, glyphDigit s.params (s.reg x) = some d ∧ t = s.setIndex (glyphAddress d) := by
  unfold execLdF
  cases glyphDigit s.params (s.reg x) <;> simp [raise, eq_comm]

/-- The range check of a block instruction: a next state needs the range, and is the checked one. -/
theorem ifInRange_eq_next {c : Bool} {u : State} {f : Fault} :
    (if c then .next u else raise f) = .next t ↔ c = true ∧ t = u := by
  cases c <;> simp [raise, eq_comm]

theorem execDrw_eq_next {x y : RegIdx} {n : Nat} :
    execDrw x y n s = .next t ↔ inRange s.i.toNat n = true ∧
      t = State.drawRows (s.reg x) (s.reg y) n (s.setFlag 0) :=
  ifInRange_eq_next

theorem execLdB_eq_next {x : RegIdx} :
    execLdB x s = .next t ↔ inRange s.i.toNat 3 = true ∧
      t = { s with mem := s.mem.writeBytes s.i.toNat (bcdDigits (s.reg x)) } :=
  ifInRange_eq_next

theorem execStoreRegs_eq_next {x : RegIdx} :
    execStoreRegs x s = .next t ↔ inRange s.i.toNat (x.val + 1) = true ∧
      t = State.storeBlock s.i.toNat (x.val + 1) s :=
  ifInRange_eq_next

theorem execLoadRegs_eq_next {x : RegIdx} :
    execLoadRegs x s = .next t ↔ inRange s.i.toNat (x.val + 1) = true ∧
      t = State.loadBlock s.i.toNat (x.val + 1) s :=
  ifInRange_eq_next

end Sys2Proof.Machine
end

section
/-! The frame of every instruction: what it may change, as data, and that it changes nothing else. -/

namespace Sys2Proof.Machine

/-- What an instruction run in state `s` may change: the destinations of its rule, VF where it writes
a flag, and the parts of the machine it acts on. -/
def mayChange (i : Instr) (s : State) : Changes :=
  match i with
  | .cls => { display := true }
  | .ret | .call _ => { pc := true, stack := true }
  | .jp _ | .jpV0 _ | .seImm _ _ | .sneImm _ _ | .seReg _ _ | .sneReg _ _ | .skp _ | .sknp _ =>
    { pc := true }
  | .ldImm x _ | .addImm x _ | .ldReg x _ | .orReg x _ | .andReg x _ | .xorReg x _ | .ldVxDt x =>
    { regs := [x] }
  | .addReg x _ | .sub x _ | .shr x _ | .subn x _ | .shl x _ => { regs := [x, 15] }
  | .ldI _ | .ldF _ => { index := true }
  | .addI _ => { regs := [15], index := true }
  | .rnd x _ => { regs := [x], rnd := true }
  | .drw _ _ _ => { regs := [15], display := true }
  | .ldVxK x => { regs := [x], pc := true, keyPick := true }
  | .ldDtVx _ => { dt := true }
  | .ldStVx _ => { st := true }
  | .ldB _ => { storeFrom := s.i.toNat, storeLen := 3 }
  | .storeRegs x => { storeFrom := s.i.toNat, storeLen := x.val + 1 }
  | .loadRegs x => { regs := (List.finRange 16).filter (· ≤ x) }

theorem Frame.clearDisplay (s : State) : Frame { display := true } s s.clearDisplay :=
  { Frame.refl _ s with display := fun h => nomatch h }

theorem Frame.setDt (s : State) (b : Byte) : Frame { dt := true } s (s.setDt b) :=
  { Frame.refl _ s with dt := fun h => nomatch h }

theorem Frame.setSt (s : State) (b : Byte) : Frame { st := true } s (s.setSt b) :=
  { Frame.refl _ s with st := fun h => nomatch h }

theorem Frame.setStackPc (s : State) (l : List Word) (w : Word) :
    Frame { pc := true, stack := true } s ((s.setStack l).setPc w) :=
  { Frame.refl _ s with pc := (fun h => nomatch h), stack := (fun h => nomatch h) }

theorem Frame.setIndexFlag (s : State) (w : Word) (b : Byte) :
    Frame { regs := [15], index := true } s ((s.setIndex w).setFlag b) :=
  { Frame.refl _ s with
    index := (fun h => nomatch h)
    regs := fun _ hr => State.reg_setReg_other (s.setIndex w) b (by simpa using hr) }

theorem Frame.drawRnd_setReg (s : State) (x : RegIdx) (b : Byte) :
    Frame { regs := [x], rnd := true } s (s.drawRnd.setReg x b) :=
  { Frame.setReg s x b with rnd := fun h => nomatch h }

theorem Frame.loadBlock (s : State) (a : Nat) (x : RegIdx) :
    Frame { regs := (List.finRange 16).filter (· ≤ x) } s (State.loadBlock a (x.val + 1) s) := by
  have hregs : ∀ r, r ∉ (List.finRange 16).filter (· ≤ x) →
      (State.loadBlock a (x.val + 1) s).reg r = s.reg r := fun r hr => by
    rw [State.reg_loadBlock a _ s (by omega), if_neg (by simpa [Nat.lt_succ_iff] using hr)]
  rw [State.loadBlock_eq] at hregs ⊢
  exact { Frame.refl _ s with regs := hregs }

/-- DRW's frame, for any row count: VF, the pixels and the dirty flag. -/
theorem Frame.drawRows (s : State) (x0 y0 : Byte) (n : Nat) :
    Frame { regs := [15], display := true } s (State.drawRows x0 y0 n (s.setFlag 0)) := by
  have hregs : ∀ r, r ∉ [15] → (State.drawRows x0 y0 n (s.setFlag 0)).reg r = s.reg r :=
    fun r hr => by
      have hr : r ≠ 15 := by simpa using hr
      rw [State.reg_drawRows _ _ _ _ hr, State.reg_setFlag, if_neg hr]
  rw [State.drawRows_rest] at hregs ⊢
  exact { Frame.refl _ s with regs := hregs, display := fun h => nomatch h }

/-- LD Vx,K waits, which sets PC only, or stores a key, which sets a register and may draw. -/
theorem execLdVxK_frame {x : RegIdx} {s t : State} (h : execLdVxK x s = .next t) :
    Frame { regs := [x], pc := true, keyPick := true } s t := by
  rcases execLdVxK_cases x s with ⟨_, e⟩ | ⟨k, _, ⟨_, _, e⟩ | ⟨_, e⟩⟩ <;> cases h.symm.trans e
  · exact { Frame.refl _ s with pc := fun h => nomatch h }
  · exact { Frame.setReg s x (keyByte k) with
      pc := (fun h => nomatch h), keyPick := (fun h => nomatch h) }
  · exact { Frame.setReg s x (keyByte k) with
      pc := (fun h => nomatch h), keyPick := (fun h => nomatch h) }

/-- Every instruction changes only what `mayChange` lists. -/
theorem exec_frame {i : Instr} {s t : State} (h : exec i s = .next t) :
    Frame (mayChange i s) s t := by
  cases i with
  | cls => cases h; exact Frame.clearDisplay s
  | ret => obtain ⟨a, older, _, rfl⟩ := execRet_eq_next.1 h; exact Frame.setStackPc s older a
  | call nnn => obtain ⟨_, rfl⟩ := execCall_eq_next.1 h; exact Frame.setStackPc s _ _
  | jp | jpV0 => cases h; exact Frame.setPc s _
  | seImm | sneImm | seReg | sneReg => cases h; exact Frame.skipIf s _
  | skp x => obtain ⟨k, _, rfl⟩ := execSkp_eq_next.1 h; exact Frame.skipIf s _
  | sknp x => obtain ⟨k, _, rfl⟩ := execSknp_eq_next.1 h; exact Frame.skipIf s _
  | ldImm | addImm | ldReg | orReg | andReg | xorReg | ldVxDt => cases h; exact Frame.setReg s _ _
  | addReg | sub | shr | subn | shl => cases h; exact Frame.setResultFlag s _ _ _
  | ldI => cases h; exact Frame.setIndex s _
  | ldF x => obtain ⟨d, _, rfl⟩ := execLdF_eq_next.1 h; exact Frame.setIndex s _
  | addI => cases h; exact Frame.setIndexFlag s _ _
  | rnd => cases h; exact Frame.drawRnd_setReg s _ _
  | drw x y n => obtain ⟨_, rfl⟩ := execDrw_eq_next.1 h; exact Frame.drawRows s _ _ n
  | ldVxK x => exact execLdVxK_frame h
  | ldDtVx => cases h; exact Frame.setDt s _
  | ldStVx => cases h; exact Frame.setSt s _
  | ldB x => obtain ⟨_, rfl⟩ := execLdB_eq_next.1 h; exact Frame.writeBytes s _ (bcdDigits _)
  | storeRegs x =>
    obtain ⟨_, rfl⟩ := execStoreRegs_eq_next.1 h; exact Frame.storeBlock s _ _ (by omega)
  | loadRegs x => obtain ⟨_, rfl⟩ := execLoadRegs_eq_next.1 h; exact Frame.loadBlock s _ x

/-- The registers an instruction may change are its destinations, and VF where it writes a flag. -/
theorem of_mem_mayChange_regs {i : Instr} {s : State} {r : RegIdx}
    (h : r ∈ (mayChange i s).regs) :
    namesDestination i r = true ∨ (r = 15 ∧ writesFlag i = true) := by
  cases i with
  | ldImm | addImm | ldReg | orReg | andReg | xorReg | ldVxDt | ldVxK | rnd | loadRegs =>
    exact Or.inl (by simpa [mayChange, namesDestination] using h)
  | addReg | sub | shr | subn | shl => simpa [mayChange, namesDestination, writesFlag] using h
  | drw | addI => exact Or.inr ⟨by simpa [mayChange] using h, rfl⟩
  | _ => exact absurd h List.not_mem_nil

/-- A register that is no destination, and no flag, is kept. -/
theorem exec_reg_of_not_named {i : Instr} {s t : State} {r : RegIdx} (h : exec i s = .next t)
    (hdest : namesDestination i r = false) (hflag : r = 15 → writesFlag i = false) :
    t.reg r = s.reg r := by
  refine (exec_frame h).regs r fun hmem => ?_
  rcases of_mem_mayChange_regs hmem with hd | ⟨hr, hw⟩
  · simp [hdest] at hd
  · simp [hflag hr] at hw

/-- The flag an instruction leaves in VF is 0 or 1 (10_state.md R21). -/
theorem exec_vf_of_writesFlag {i : Instr} {s t : State} (h : exec i s = .next t)
    (hw : writesFlag i = true) : t.reg 15 = 0 ∨ t.reg 15 = 1 := by
  cases i with
  | addReg | sub | shr | subn | shl =>
    cases h
    rw [State.reg_setResultFlag, if_pos rfl]
    exact flagByte_eq _
  | addI =>
    cases h
    rw [State.reg_setFlag, if_pos rfl]
    exact flagByte_eq _
  | drw x y n =>
    obtain ⟨_, rfl⟩ := execDrw_eq_next.1 h
    exact State.vf_drawRows _ _ _ _ (Or.inl (by rw [State.reg_setFlag, if_pos rfl]))
  | _ => cases hw

/-- No instruction changes the keypad latch. -/
theorem exec_keys {i : Instr} {s t : State} (h : exec i s = .next t) : t.keys = s.keys :=
  Vector.ext fun k hk => (exec_frame h).keys ⟨k, hk⟩

end Sys2Proof.Machine

open Sys2Proof.Machine

/-- Settles O17: VF is outside every other instruction's frame. -/
theorem vfIsWrittenOnlyAsFlagOrDestination : Obligations.VfIsWrittenOnlyAsFlagOrDestination :=
  fun _ _ _ h => ⟨exec_vf_of_writesFlag h,
    fun hflag hdest => exec_reg_of_not_named h hdest fun _ => hflag⟩

/-- Settles O18, from the frame of every instruction. -/
theorem registersChangeOnlyAsDestinations : Obligations.RegistersChangeOnlyAsDestinations := by
  intro i s t h
  refine ⟨fun r hr hdest => exec_reg_of_not_named h hdest (absurd · hr), fun hI hF hAdd => ?_⟩
  cases i with
  | ldI nnn => exact absurd rfl (hI nnn)
  | ldF x => exact absurd rfl (hF x)
  | addI x => exact absurd rfl (hAdd x)
  | _ => exact (exec_frame h).index rfl

/-- Settles O20: CLS and DRW leave a dirty display dirty, every other frame keeps it. -/
theorem displayWriters : Obligations.DisplayWriters := by
  intro i s t h
  cases i with
  | cls => cases h; exact ⟨fun _ => rfl, fun hne => absurd rfl hne⟩
  | drw x y n =>
    obtain ⟨_, rfl⟩ := execDrw_eq_next.1 h
    exact ⟨State.dirty_drawRows _ _ _ (s.setFlag 0), fun _ hne => absurd rfl (hne x y n)⟩
  | _ =>
    obtain ⟨hpixels, hdirty⟩ := (exec_frame h).display rfl
    exact ⟨hdirty.trans, fun _ _ => ⟨hpixels, hdirty⟩⟩
end

section
/-! Reset, and what a step answers (10_state.md R39 to R43). -/

namespace Sys2Proof.Machine

variable {s t : State}

/-! ### The tick at the end of a step keeps everything but the timers -/

theorem State.endOfStepTick_frame (s : State) :
    Frame { dt := true, st := true } s s.endOfStepTick := by
  rw [State.endOfStepTick_eq]
  split
  · exact Frame.tick s
  · exact Frame.refl _ s

@[simp] theorem State.endOfStepTick_pc (s : State) : s.endOfStepTick.pc = s.pc :=
  s.endOfStepTick_frame.pc rfl

@[simp] theorem State.endOfStepTick_stack (s : State) : s.endOfStepTick.stack = s.stack :=
  s.endOfStepTick_frame.stack rfl

@[simp] theorem State.endOfStepTick_rnd (s : State) : s.endOfStepTick.rnd = s.rnd :=
  s.endOfStepTick_frame.rnd rfl

@[simp] theorem State.endOfStepTick_fault (s : State) : s.endOfStepTick.fault = s.fault :=
  s.endOfStepTick_frame.fault

@[simp] theorem State.endOfStepTick_params (s : State) : s.endOfStepTick.params = s.params :=
  s.endOfStepTick_frame.params

@[simp] theorem State.endOfStepTick_keys (s : State) : s.endOfStepTick.keys = s.keys := by
  rw [State.endOfStepTick_eq]; split <;> rfl

@[simp] theorem State.endOfStepTick_mem (s : State) : s.endOfStepTick.mem = s.mem := by
  rw [State.endOfStepTick_eq]; split <;> rfl

/-! ### The step -/

/-- A step is refused exactly in a faulted state (10_state.md R41). -/
theorem step_eq_refused {r : Refusal} :
    step s = .refused r ↔ s.fault ≠ none ∧ r = .faultedState := by
  unfold step
  cases s.fault with
  | some f => simp [eq_comm]
  | none =>
    cases fetch s with
    | none => simp [raise]
    | some op =>
      cases hd : decodeWord op with
      | none => simp [raise, hd]
      | some i => simp [hd, endStep_eq_refused, exec_ne_refused]

/-- Where no fault is recorded and the word at PC decodes to `i`, the step is that of `i`. -/
theorem step_eq_endStep {op : Word} {i : Instr} (hs : s.fault = none) (hf : fetch s = some op)
    (hd : decodeWord op = some i) : step s = endStep (exec i s.advancePc) := by
  simp [step, hs, hf, hd]

/-- The step whose word is known to decode to `i` is a run of `i` and the tick. -/
theorem exec_of_step {op : Word} {i : Instr} (hf : fetch s = some op)
    (hd : decodeWord op = some i) (hstep : step s = .next t) :
    ∃ u, exec i s.advancePc = .next u ∧ t = u.endOfStepTick := by
  obtain ⟨-, op', i', u, hf', hd', hu, ht⟩ := step_eq_next.1 hstep
  cases hf.symm.trans hf'
  cases hd.symm.trans hd'
  exact ⟨u, hu, ht⟩

end Sys2Proof.Machine

namespace Sys2Proof

theorem decode_pair_eq_decoded {hi lo : Byte} {i : Instr} {rest : List Byte} :
    decode [hi, lo] = .decoded i rest ↔ decodeWord (wordOfBytes hi lo) = some i ∧ rest = [] := by
  simp only [decode]
  cases decodeWord (wordOfBytes hi lo) <;> simp [eq_comm]

end Sys2Proof

open Sys2Proof Sys2Proof.Machine

/-- Settles O6, field by field. -/
theorem resetHoldsTheListedValues : Obligations.ResetHoldsTheListedValues := by
  have hreg (p : Params) (r : RegIdx) : (State.resetWith p).reg r = 0 := by
    simp [State.reg, State.resetWith]
  have hpixel (p : Params) (px : Fin 64) (py : Fin 32) :
      (State.resetWith p).pixel px py = false := by
    simp [State.pixel, State.resetWith, Display.blank]
  have hkey (p : Params) (k : Fin 16) : (State.resetWith p).key k = false := by
    simp [State.key, State.resetWith]
  exact ⟨rfl, fun p =>
    ⟨rfl, hreg p, rfl, rfl, rfl, fun _ => rfl, rfl, hpixel p, rfl, hkey p, rfl, rfl⟩⟩

/-- Settles O14: memory and the stack are empty, and PC is the entry point. -/
theorem resetMeetsInvariant : Obligations.ResetMeetsInvariant :=
  fun _ => ⟨Memory.wf_nil, Nat.zero_le 16, fun _ ha => (List.not_mem_nil ha).elim,
    (by decide : (0x200 : Word).toNat ≤ 0x10FE)⟩

/-- Settles O9: both directions of `step_eq_refused`. -/
theorem stepIsRefusedExactlyWhenFaulted : Obligations.StepIsRefusedExactlyWhenFaulted :=
  fun _ => ⟨fun hs => step_eq_refused.2 ⟨hs, rfl⟩, fun ⟨_, hr⟩ => (step_eq_refused.1 hr).1⟩

/-- Settles O7: such a step is `endStep` of the instruction's answer. -/
theorem stepRunsTheDecodedInstruction : Obligations.StepRunsTheDecodedInstruction := by
  intro s i hs hpc hdec
  have hstep : step s = endStep (exec i (s.setPc (s.pc + 2))) :=
    step_eq_endStep hs (fetch_eq_some.2 ⟨hpc, rfl⟩) (decode_pair_eq_decoded.1 hdec).1
  refine ⟨fun t ht => ?_, fun f hf => ?_, exec_ne_refused i _⟩
  · rw [hstep, ht, endStep, State.endOfStepTick_eq]
    exact ⟨fun hp => by rw [if_pos hp], fun hp => by rw [hp, if_neg (by decide)]⟩
  · rw [hstep, hf, endStep]

/-- Settles O21: the latch, the fault field and the parameters are in no frame, the random source in
RND's only. -/
theorem stepKeepsKeysAndDrawsOnlyForRnd : Obligations.StepKeepsKeysAndDrawsOnlyForRnd := by
  intro s t op i hf hd hstep
  obtain ⟨u, hu, rfl⟩ := exec_of_step hf hd hstep
  have hframe := exec_frame hu
  simp only [State.endOfStepTick_keys, State.endOfStepTick_fault, State.endOfStepTick_params,
    State.endOfStepTick_rnd]
  refine ⟨(exec_keys hu).trans s.advancePc_keys, hframe.fault, hframe.params, ?_, fun hrnd => ?_⟩
  · rintro ⟨x, kk, rfl⟩
    cases hu
    exact ⟨rfl, List.drop_one.symm⟩
  · cases i with
    | rnd x kk => exact absurd rfl (hrnd x kk)
    | _ => exact hframe.rnd rfl
end

section
/-! PC after a step (10_state.md R24), and the invariant of a session. -/

namespace Sys2Proof.Machine

theorem State.skipIf_pc_cases (s : State) (c : Bool) :
    (s.skipIf c).pc = s.pc ∨ (s.skipIf c).pc = s.pc + 2 := by cases c <;> simp

/-- LD Vx,K moves PC back exactly when no key is pressed (46_keys.md R182). -/
theorem execLdVxK_pc {x : RegIdx} {s t : State} (h : execLdVxK x s = .next t) :
    ((∀ k, s.key k = false) ∧ t.pc = s.pc - 2) ∨ ((∃ k, s.key k = true) ∧ t.pc = s.pc) := by
  rcases execLdVxK_cases x s with ⟨hk, e⟩ | ⟨k, hk, ⟨_, _, e⟩ | ⟨_, e⟩⟩ <;> cases h.symm.trans e
  · exact Or.inl ⟨hk, rfl⟩
  · exact Or.inr ⟨⟨k, hk⟩, rfl⟩
  · exact Or.inr ⟨⟨k, hk⟩, rfl⟩

end Sys2Proof.Machine

open Sys2Proof Sys2Proof.Machine

/-- Settles O16: the control instructions, the skips and LD Vx,K one by one, and every other
instruction by its frame, which keeps PC. -/
theorem pcAfterStep : Obligations.PcAfterStep := by
  intro s t op i hf hd hstep
  obtain ⟨u, hu, rfl⟩ := exec_of_step hf hd hstep
  have hskip {c : Bool} : (s.advancePc.skipIf c).pc = s.pc + 2 ∨
      (s.advancePc.skipIf c).pc = s.pc + 4 := by
    rcases s.advancePc.skipIf_pc_cases c with e | e
    · exact Or.inl e
    · exact Or.inr (by rw [e, State.advancePc_pc, add_assoc]; rfl)
  cases i <;> simp only [State.endOfStepTick_pc]
  case jp nnn => cases hu; exact toNat_addrOperand nnn
  case call nnn => obtain ⟨_, rfl⟩ := execCall_eq_next.1 hu; exact toNat_addrOperand nnn
  case ret =>
    obtain ⟨a, older, hstack, rfl⟩ := execRet_eq_next.1 hu
    rw [State.advancePc_stack] at hstack
    simp [hstack]
  case jpV0 nnn =>
    cases hu
    have hnnn := nnn.isLt
    have hv0 := (s.reg 0).isLt
    rw [State.setPc_pc, BitVec.toNat_add, toNat_wordOperand, toNat_addrOperand,
      State.reg_congr s.advancePc_v]
    exact Nat.mod_eq_of_lt (by omega)
  case seImm | sneImm | seReg | sneReg => cases hu; exact hskip
  case skp => obtain ⟨_, _, rfl⟩ := execSkp_eq_next.1 hu; exact hskip
  case sknp => obtain ⟨_, _, rfl⟩ := execSknp_eq_next.1 hu; exact hskip
  case ldVxK x =>
    have hback : s.pc + 2 - 2 = s.pc := add_sub_cancel_right _ _
    rcases execLdVxK_pc hu with ⟨hnone, hpc⟩ | ⟨⟨k, hk⟩, hpc⟩
    · exact ⟨fun _ => hpc.trans hback, fun ⟨k, hk⟩ => absurd (hk.symm.trans (hnone k)) (by decide)⟩
    · exact ⟨fun hnone => absurd (hk.symm.trans (hnone k)) (by decide), fun _ => hpc⟩
  all_goals exact (exec_frame hu).pc rfl
end

section
/-! The invariant of a session, part by part, and that every step keeps it. -/

namespace Sys2Proof.Machine

/-- Only LD B and LD [I] change the memory list (20_memory.md R50). -/
theorem exec_mem_of_not_store {i : Instr} {s t : State} (h : exec i s = .next t)
    (hB : ∀ x, i ≠ .ldB x) (hStore : ∀ x, i ≠ .storeRegs x) : t.mem = s.mem := by
  cases i with
  | ret => obtain ⟨_, _, _, rfl⟩ := execRet_eq_next.1 h; rfl
  | call => obtain ⟨_, rfl⟩ := execCall_eq_next.1 h; rfl
  | skp => obtain ⟨_, _, rfl⟩ := execSkp_eq_next.1 h; rw [State.skipIf_eq]; rfl
  | sknp => obtain ⟨_, _, rfl⟩ := execSknp_eq_next.1 h; rw [State.skipIf_eq]; rfl
  | seImm | sneImm | seReg | sneReg => cases h; rw [State.skipIf_eq]; rfl
  | ldF => obtain ⟨_, _, rfl⟩ := execLdF_eq_next.1 h; rfl
  | drw => obtain ⟨_, rfl⟩ := execDrw_eq_next.1 h; rw [State.drawRows_rest]; rfl
  | ldVxK x =>
    rcases execLdVxK_cases x s with ⟨_, e⟩ | ⟨_, _, ⟨_, _, e⟩ | ⟨_, e⟩⟩ <;>
      (cases h.symm.trans e; rfl)
  | ldB x => exact absurd rfl (hB x)
  | storeRegs x => exact absurd rfl (hStore x)
  | loadRegs => obtain ⟨_, rfl⟩ := execLoadRegs_eq_next.1 h; rw [State.loadBlock_eq]
  | _ => cases h; rfl

/-- Every instruction keeps memory in canonical form: a store is made in range only. -/
theorem exec_keeps_mem_wf {i : Instr} {s t : State} (h : exec i s = .next t)
    (hs : s.mem.wf = true) : t.mem.wf = true := by
  cases i with
  | ldB x =>
    obtain ⟨hrange, rfl⟩ := execLdB_eq_next.1 h
    have hle := (inRange_iff.1 hrange).resolve_left (by decide)
    exact Memory.wf_writeBytes hs hle
  | storeRegs x =>
    obtain ⟨hrange, rfl⟩ := execStoreRegs_eq_next.1 h
    have hle := (inRange_iff.1 hrange).resolve_left (Nat.succ_ne_zero _)
    exact State.wf_storeBlock _ _ s hs hle
  | _ =>
    rw [exec_mem_of_not_store h (fun _ => Instr.noConfusion) (fun _ => Instr.noConfusion)]
    exact hs

/-- An instruction keeps the stack, pops its newest entry or, with room for it, pushes PC
(10_state.md R27 to R29). -/
theorem exec_stack_cases {i : Instr} {s t : State} (h : exec i s = .next t) :
    t.stack = s.stack ∨ (∃ a, s.stack = t.stack ++ [a]) ∨
      (s.stack.length < 16 ∧ t.stack = s.stack ++ [s.pc]) := by
  cases i with
  | ret =>
    obtain ⟨a, older, hstack, rfl⟩ := execRet_eq_next.1 h
    exact Or.inr (Or.inl ⟨a, hstack⟩)
  | call nnn =>
    obtain ⟨hlen, rfl⟩ := execCall_eq_next.1 h
    exact Or.inr (Or.inr ⟨hlen, rfl⟩)
  | _ => exact Or.inl ((exec_frame h).stack rfl)

/-- The stack's part of the invariant (10_state.md R26), for any bounds on the return addresses that
PC after the fetch meets. -/
theorem exec_keeps_stack_bounds {i : Instr} {s t : State} {lo hi : Nat} (h : exec i s = .next t)
    (hpc : lo ≤ s.pc.toNat ∧ s.pc.toNat ≤ hi) (hlen : s.stack.length ≤ 16)
    (hs : ∀ a ∈ s.stack, lo ≤ a.toNat ∧ a.toNat ≤ hi) :
    t.stack.length ≤ 16 ∧ ∀ a ∈ t.stack, lo ≤ a.toNat ∧ a.toNat ≤ hi := by
  rcases exec_stack_cases h with e | ⟨top, e⟩ | ⟨hroom, e⟩
  · rw [e]; exact ⟨hlen, hs⟩
  · rw [e] at hlen hs
    rw [List.length_append] at hlen
    exact ⟨by omega, fun a ha => hs a (List.mem_append_left _ ha)⟩
  · rw [e, List.length_append]
    refine ⟨hroom, fun a ha => ?_⟩
    rcases List.mem_append.1 ha with ha | ha
    · exact hs a ha
    · rw [List.mem_singleton.1 ha]; exact hpc

/-- The highest PC a step leaves is that of JP V0, 0xFF + 0xFFF (40_control_flow.md R107). -/
theorem step_pc_le {s t : State} (h : step s = .next t)
    (hs : ∀ a ∈ s.stack, a.toNat ≤ 0x1000) : t.pc.toNat ≤ 0x10FE := by
  obtain ⟨-, op, i, -, hf, hd, -, -⟩ := step_eq_next.1 h
  have hfetch : s.pc.toNat ≤ 0xFFE := (fetch_eq_some.1 hf).1
  have hnext : (s.pc + 2).toNat ≤ 0x1000 := by bv_omega
  have hpc := pcAfterStep s t op i hf hd h
  cases i
  case jp nnn | call nnn => have := nnn.isLt; simp only at hpc; omega
  case ret =>
    have := hs _ (List.mem_of_getLast? hpc)
    omega
  case jpV0 nnn => have := nnn.isLt; have := (s.reg 0).isLt; simp only at hpc; omega
  case seImm | sneImm | seReg | sneReg | skp | sknp =>
    rcases hpc with e | e <;> rw [e]
    · omega
    · bv_omega
  case ldVxK =>
    by_cases hk : ∃ k, s.key k = true
    · rw [hpc.2 hk]; omega
    · rw [hpc.1 fun k => by simpa using fun e => hk ⟨k, e⟩]; omega
  all_goals rw [show t.pc = s.pc + 2 from hpc]; omega

end Sys2Proof.Machine

open Sys2Proof.Machine

/-- Settles O13: CALL pushes a fetch address plus 2, and a fetch address is at most 0xFFE. -/
theorem stepKeepsInvariant : Obligations.StepKeepsInvariant := by
  intro s t ⟨hmem, hlen, hstack, _⟩ hstep
  obtain ⟨-, op, i, u, hf, -, hu, rfl⟩ := step_eq_next.1 hstep
  have hfetch : s.pc.toNat ≤ 0xFFE := (fetch_eq_some.1 hf).1
  have hret : 2 ≤ s.advancePc.pc.toNat ∧ s.advancePc.pc.toNat ≤ 0x1000 := by
    rw [State.advancePc_pc]; constructor <;> bv_omega
  obtain ⟨hlen', hstack'⟩ := exec_keeps_stack_bounds hu hret hlen hstack
  refine ⟨?_, ?_, ?_, step_pc_le hstep fun a ha => (hstack a ha).2⟩
  · rw [State.endOfStepTick_mem]; exact exec_keeps_mem_wf hu hmem
  · rw [State.endOfStepTick_stack]; exact hlen'
  · rw [State.endOfStepTick_stack]; exact hstack'
end

section
/-! The keypad latch is read by SKP, SKNP and LD Vx,K only (10_state.md R33): every other meaning
commutes with a change of the latch. -/

namespace Sys2Proof.Machine

/-- The state under another keypad latch. -/
def State.withKeys (s : State) (ks : Vector Bool 16) : State := { s with keys := ks }

/-- An outcome with its next state changed. -/
def mapNext (g : State → State) :
    Host.Outcome State Fault Refusal → Host.Outcome State Fault Refusal
  | .next t => .next (g t)
  | .fault f => .fault f
  | .refused r => .refused r

/-- A change of the state that neither reads nor writes the latch. -/
def IgnoresKeys (f : State → State) : Prop := ∀ s ks, f (s.withKeys ks) = (f s).withKeys ks

theorem ignoresKeys_skipIf (c : Bool) : IgnoresKeys (·.skipIf c) := by
  intro s ks; cases c <;> rfl

theorem ignoresKeys_drawBit (bit : Bool) (px : Fin 64) (py : Fin 32) :
    IgnoresKeys (State.drawBit bit px py) := by
  intro s ks
  cases bit with
  | false => rfl
  | true =>
    have hpixel : (s.withKeys ks).pixel px py = s.pixel px py := rfl
    simp only [State.drawBit, State.flipPixel, hpixel]
    cases s.pixel px py <;> rfl

theorem ignoresKeys_drawCols (x0 b : Byte) (py : Fin 32) (k : Nat) :
    IgnoresKeys (State.drawCols x0 b py k) := by
  intro s ks
  induction k with
  | zero => rfl
  | succ k ih => rw [State.drawCols, ih, ignoresKeys_drawBit]; rfl

theorem ignoresKeys_drawRows (x0 y0 : Byte) (n : Nat) :
    IgnoresKeys (State.drawRows x0 y0 n) := by
  intro s ks
  induction n with
  | zero => rfl
  | succ n ih => rw [State.drawRows, ih, ignoresKeys_drawCols]; rfl

theorem ignoresKeys_storeBlock (a k : Nat) : IgnoresKeys (State.storeBlock a k) := by
  intro s ks
  induction k with
  | zero => rfl
  | succ k ih => rw [State.storeBlock, ih]; rfl

theorem ignoresKeys_loadBlock (a k : Nat) : IgnoresKeys (State.loadBlock a k) := by
  intro s ks
  induction k with
  | zero => rfl
  | succ k ih => rw [State.loadBlock, ih]; rfl

/-- A range check that does not read the latch, before a change that ignores it. -/
theorem ifInRange_withKeys {c : Bool} {u u' : State} {f : Fault} {ks : Vector Bool 16}
    (h : u' = u.withKeys ks) :
    (if c then .next u' else raise f) =
      mapNext (·.withKeys ks) (if c then .next u else raise f) := by
  subst h
  cases c <;> rfl

/-- Every instruction but SKP, SKNP and LD Vx,K answers alike under another latch. -/
theorem exec_withKeys {i : Instr} (s : State) (ks : Vector Bool 16) (hSkp : ∀ x, i ≠ .skp x)
    (hSknp : ∀ x, i ≠ .sknp x) (hLdK : ∀ x, i ≠ .ldVxK x) :
    exec i (s.withKeys ks) = mapNext (·.withKeys ks) (exec i s) := by
  cases i with
  | skp x => exact absurd rfl (hSkp x)
  | sknp x => exact absurd rfl (hSknp x)
  | ldVxK x => exact absurd rfl (hLdK x)
  | seImm | sneImm | seReg | sneReg =>
    exact congrArg Host.Outcome.next (ignoresKeys_skipIf _ s ks)
  | ret =>
    simp only [exec, execRet, State.withKeys]
    cases stackPop s.stack <;> rfl
  | call nnn =>
    simp only [exec, execCall, State.withKeys]
    cases stackPush s.stack s.pc <;> rfl
  | ldF x =>
    have hreg : (s.withKeys ks).reg x = s.reg x := rfl
    have hparams : (s.withKeys ks).params = s.params := rfl
    simp only [exec, execLdF, hreg, hparams]
    cases glyphDigit s.params (s.reg x) <;> rfl
  | drw x y n => exact ifInRange_withKeys (ignoresKeys_drawRows _ _ n (s.setFlag 0) ks)
  | ldB x => exact ifInRange_withKeys rfl
  | storeRegs x => exact ifInRange_withKeys (ignoresKeys_storeBlock _ _ s ks)
  | loadRegs x => exact ifInRange_withKeys (ignoresKeys_loadBlock _ _ s ks)
  | _ => rfl

end Sys2Proof.Machine

open Sys2Proof Sys2Proof.Machine

/-- Settles O23: such an instruction commutes with a change of the latch. -/
theorem keysAreReadOnlyByKeyInstructions : Obligations.KeysAreReadOnlyByKeyInstructions := by
  intro i s ks hSkp hSknp hLdK
  have hexec := exec_withKeys s ks hSkp hSknp hLdK
  exact ⟨fun t ht => hexec.trans (congrArg _ ht), fun f hf => hexec.trans (congrArg _ hf)⟩
end

section
/-! Memory and the stack: who writes them, and the fetch that reads back what was stored
(20_memory.md). -/

namespace Sys2Proof.Machine

variable {s t : State}

/-- Only CALL and RET change the stack (10_state.md R27). -/
theorem exec_stack_of_not_call_ret {i : Instr} (h : exec i s = .next t)
    (hCall : ∀ nnn, i ≠ .call nnn) (hRet : i ≠ .ret) : t.stack = s.stack := by
  cases i with
  | call nnn => exact absurd rfl (hCall nnn)
  | ret => exact absurd rfl hRet
  | _ => exact (exec_frame h).stack rfl

/-- A fetch past 0xFFE faults whatever memory holds (20_memory.md R57). -/
theorem step_of_fetch_past_memory (hs : s.fault = none) (hpc : 0xFFE < s.pc.toNat) :
    step s = .fault (fetchFault s) :=
  step_eq_fault.2 ⟨hs, Or.inl ⟨fetch_eq_none.2 hpc, rfl⟩⟩

/-- A fetched word that does not decode faults (30_encoding.md R92). -/
theorem step_of_unknown_word {op : Word} (hs : s.fault = none) (hf : fetch s = some op)
    (hd : decodeWord op = none) : step s = .fault (.unknownOpcode op) :=
  step_eq_fault.2 ⟨hs, Or.inr (Or.inl ⟨op, hf, hd, rfl⟩)⟩

/-- The fetch in range gives the word whose value is that of the two bytes at PC. -/
theorem fetch_eq_some_iff_toNat {op : Word} :
    fetch s = some op ↔ s.pc.toNat ≤ 0xFFE ∧
      op.toNat = (s.memRead s.pc.toNat).toNat * 256 + (s.memRead (s.pc.toNat + 1)).toNat := by
  rw [fetch_eq_some, ← toNat_wordOfBytes, BitVec.toNat_inj]

/-- LD [I],Vx leaves Vk at I + k, for every k up to x (48_bcd_block.md R201). -/
theorem memRead_of_storeRegs {x k : RegIdx} (h : exec (.storeRegs x) s = .next t) (hk : k ≤ x) :
    t.memRead (s.i.toNat + k.val) = s.reg k := by
  have hkx : k.val ≤ x.val := hk
  obtain ⟨-, rfl⟩ := execStoreRegs_eq_next.1 h
  rw [State.memRead_storeBlock _ _ _ (by omega), if_pos (by omega), Nat.add_sub_cancel_left,
    Fin.ofNat_eq_cast, Fin.cast_val_eq_self]

/-- LD [I],Vx completes only where the whole block exists (20_memory.md R58). -/
theorem range_of_storeRegs {x : RegIdx} (h : exec (.storeRegs x) s = .next t) :
    s.i.toNat + (x.val + 1) ≤ 4096 :=
  (inRange_iff.1 (execStoreRegs_eq_next.1 h).1).resolve_left (Nat.succ_ne_zero _)

end Sys2Proof.Machine

open Sys2Proof Sys2Proof.Machine

/-- Settles O19: every other instruction keeps the memory list and the stack. -/
theorem memoryAndStackWriters : Obligations.MemoryAndStackWriters :=
  fun _ _ _ h => ⟨fun hB hStore => State.memRead_congr (exec_mem_of_not_store h hB hStore),
    exec_stack_of_not_call_ret h⟩

/-- Settles O55: the store leaves V0 and V1 at the two bytes PC still points to, both in range. -/
theorem storedWordIsFetched : Obligations.StoredWordIsFetched := by
  intro x s t h hx hi
  have hpc : t.pc.toNat = s.i.toNat := by rw [(exec_frame h).pc rfl, hi]
  have hrange := range_of_storeRegs h
  have hV0 : t.memRead t.pc.toNat = s.reg 0 := hpc ▸ memRead_of_storeRegs h (Fin.zero_le x)
  have hV1 : t.memRead (t.pc.toNat + 1) = s.reg 1 := hpc ▸ memRead_of_storeRegs (k := 1) h hx
  refine ⟨_, fetch_eq_some.2 ⟨by omega, rfl⟩, ?_⟩
  rw [toNat_wordOfBytes, hV0, hV1]

/-- Settles O8: the fetch's two outcomes, split by PC. -/
theorem fetchAndDecodeFault : Obligations.FetchAndDecodeFault :=
  fun _ hs => ⟨step_of_fetch_past_memory hs, fun _ hpc hop =>
    step_of_unknown_word hs (fetch_eq_some_iff_toNat.2 ⟨hpc, hop⟩)⟩
end

section
/-! Encoding and decoding (30_encoding.md R80 to R92): the fields of an encoded word, the words each
mask of the table selects, and the two round trips. -/

namespace Sys2Proof

open Machine (toNat_wordOfBytes)
open Laws.FitsItsRow (of_addr of_regImm of_sub of_regReg row_mem)

variable {c f : BitVec 4} {x y : RegIdx} {kk : Byte} {nnn : Addr12} {op p : Word}

/-! ### The fields of the words the encoder writes (R84) -/

@[simp] theorem fieldNnn_wordAddr : fieldNnn (wordAddr c nnn) = nnn := by
  apply BitVec.eq_of_toNat_eq
  rw [toNat_fieldNnn, toNat_wordAddr]
  omega

@[simp] theorem fieldX_wordRegImm : fieldX (wordRegImm c x kk) = x := by
  apply Fin.ext
  rw [val_fieldX, toNat_wordRegImm]
  omega

@[simp] theorem fieldKk_wordRegImm : fieldKk (wordRegImm c x kk) = kk := by
  apply BitVec.eq_of_toNat_eq
  rw [toNat_fieldKk, toNat_wordRegImm]
  omega

/-- A REG_REG word is the REG_IMM word whose kk is y and the low nibble. -/
theorem wordRegReg_eq_wordRegImm : wordRegReg c x y f = wordRegImm c x (nibble y ++ f) := by
  apply BitVec.eq_of_toNat_eq
  simp only [wordRegReg, wordRegImm, BitVec.toNat_append, Nat.shiftLeft_or_distrib,
    ← Nat.shiftLeft_add, Nat.or_assoc]

@[simp] theorem fieldX_wordRegReg : fieldX (wordRegReg c x y f) = x := by
  rw [wordRegReg_eq_wordRegImm, fieldX_wordRegImm]

@[simp] theorem fieldY_wordRegReg : fieldY (wordRegReg c x y f) = y := by
  apply Fin.ext
  rw [val_fieldY, toNat_wordRegReg]
  omega

@[simp] theorem fieldN_wordRegReg : fieldN (wordRegReg c x y f) = f.toNat := by
  rw [fieldN_eq, toNat_wordRegReg]
  omega

/-! ### The word with given fields -/

theorem wordAddr_fieldNnn (hc : op.toNat / 4096 = c.toNat) : wordAddr c (fieldNnn op) = op := by
  apply BitVec.eq_of_toNat_eq
  rw [toNat_wordAddr, toNat_fieldNnn]
  omega

theorem wordRegImm_fields (hc : op.toNat / 4096 = c.toNat) (hkk : op.toNat % 256 = kk.toNat) :
    wordRegImm c (fieldX op) kk = op := by
  apply BitVec.eq_of_toNat_eq
  rw [toNat_wordRegImm, val_fieldX]
  omega

theorem wordRegReg_fields (hc : op.toNat / 4096 = c.toNat) (hf : op.toNat % 16 = f.toNat) :
    wordRegReg c (fieldX op) (fieldY op) f = op := by
  apply BitVec.eq_of_toNat_eq
  rw [toNat_wordRegReg, val_fieldX, val_fieldY]
  omega

theorem wordOfBytes_bytesOfWord : wordOfBytes (op.extractLsb' 8 8) (op.extractLsb' 0 8) = op := by
  apply BitVec.eq_of_toNat_eq
  rw [toNat_wordOfBytes, BitVec.extractLsb'_toNat, BitVec.extractLsb'_toNat,
    Nat.shiftRight_eq_div_pow, Nat.shiftRight_eq_div_pow]
  omega

/-! ### The words that each mask of the table selects -/

theorem and_maskF000_eq_iff :
    op &&& 0xF000 = p ↔ op.toNat / 4096 = p.toNat / 4096 ∧ p.toNat % 4096 = 0 := by
  rw [← BitVec.toNat_inj, toNat_and_maskF000]
  omega

theorem and_maskF00F_eq_iff :
    op &&& 0xF00F = p ↔ op.toNat / 4096 = p.toNat / 4096 ∧ op.toNat % 16 = p.toNat % 4096 := by
  rw [← BitVec.toNat_inj, toNat_and_maskF00F]
  omega

theorem and_maskF0FF_eq_iff :
    op &&& 0xF0FF = p ↔ op.toNat / 4096 = p.toNat / 4096 ∧ op.toNat % 256 = p.toNat % 4096 := by
  rw [← BitVec.toNat_inj, toNat_and_maskF0FF]
  omega

theorem and_maskFFFF_eq_iff : op &&& 0xFFFF = p ↔ op = p := by
  rw [← BitVec.toNat_inj, toNat_and_maskFFFF, BitVec.toNat_inj]

/-! ### Decoding is a search of the table (R91) -/

theorem decodeWord_eq_none_iff :
    decodeWord op = none ↔ ∀ r ∈ opcodeRows, op &&& r.mask ≠ r.pattern := by
  simp only [decodeWord, Option.map_eq_none_iff, List.find?_eq_none, OpcodeRow.matchesWord_iff,
    ne_eq]

theorem decodeWord_eq_some_iff {i : Instr} :
    decodeWord op = some i ↔ ∃ r ∈ opcodeRows, op &&& r.mask = r.pattern ∧ r.build op = i := by
  constructor
  · intro h
    obtain ⟨r, hfind, hbuild⟩ := Option.map_eq_some_iff.1 h
    have hmatch : r.matchesWord op = true := by simpa using List.find?_some hfind
    exact ⟨r, List.mem_of_find?_eq_some hfind,
      OpcodeRow.matchesWord_iff.1 hmatch, hbuild⟩
  · rintro ⟨r, hr, hm, rfl⟩
    exact decodeWord_of_row hr hm

/-- Of rows without overlaps at most one matches a word. -/
theorem length_filter_matchesWord_le_one {rows : List OpcodeRow}
    (h : rows.Pairwise fun r q => (r.pattern ^^^ q.pattern) &&& (r.mask &&& q.mask) ≠ 0) :
    (rows.filter (·.matchesWord op)).length ≤ 1 := by
  have hmatch : ∀ r ∈ rows.filter (·.matchesWord op), r.matchesWord op = true :=
    fun _ hr => (List.mem_filter.1 hr).2
  have hpair := h.filter (·.matchesWord op)
  generalize rows.filter (·.matchesWord op) = matching at hmatch hpair ⊢
  match matching, hmatch, hpair with
  | [], _, _ | [_], _, _ => simp
  | r :: q :: _, hmatch, hpair =>
    have hdisjoint := List.rel_of_pairwise_cons hpair List.mem_cons_self
    have hq := OpcodeRow.not_both_match hdisjoint (hmatch r (by simp))
    simp [hmatch q] at hq

theorem decode_cons_cons_eq_decoded {hi lo : Byte} {i : Instr} {rest : List Byte}
    (h : decodeWord (wordOfBytes hi lo) = some i) : decode (hi :: lo :: rest) = .decoded i rest := by
  rw [decode, h]

/-! ### Decode of encode: one lemma per format, then one case per instruction -/

theorem decodeWord_wordAddr {build : Addr12 → Instr}
    (hr : ⟨0xF000, p, fun op => build (fieldNnn op)⟩ ∈ opcodeRows)
    (hp : p.toNat = c.toNat * 4096) : decodeWord (wordAddr c nnn) = some (build nnn) := by
  simp only [decodeWord_of_row hr (of_addr hp), fieldNnn_wordAddr]

theorem decodeWord_wordRegImm {build : RegIdx → Byte → Instr}
    (hr : ⟨0xF000, p, fun op => build (fieldX op) (fieldKk op)⟩ ∈ opcodeRows)
    (hp : p.toNat = c.toNat * 4096) : decodeWord (wordRegImm c x kk) = some (build x kk) := by
  simp only [decodeWord_of_row hr (of_regImm hp), fieldX_wordRegImm, fieldKk_wordRegImm]

/-- The REG_IMM words whose kk selects the instruction (R88, R89). -/
theorem decodeWord_wordRegImm_sub {build : RegIdx → Instr}
    (hr : ⟨0xF0FF, p, fun op => build (fieldX op)⟩ ∈ opcodeRows)
    (hp : p.toNat = c.toNat * 4096 + kk.toNat) :
    decodeWord (wordRegImm c x kk) = some (build x) := by
  simp only [decodeWord_of_row hr (of_sub hp), fieldX_wordRegImm]

theorem decodeWord_wordRegReg {build : RegIdx → RegIdx → Instr}
    (hr : ⟨0xF00F, p, fun op => build (fieldX op) (fieldY op)⟩ ∈ opcodeRows)
    (hp : p.toNat = c.toNat * 4096 + f.toNat) :
    decodeWord (wordRegReg c x y f) = some (build x y) := by
  simp only [decodeWord_of_row hr (of_regReg hp), fieldX_wordRegReg, fieldY_wordRegReg]

theorem decodeWord_encode_drw {n : Nat} (hn : n < 16) :
    decodeWord (encode (.drw x y n)) = some (.drw x y n) := by
  have hm : encode (.drw x y n) &&& 0xF000 = 0xD000 := by
    rw [encode, wordRegReg_eq_wordRegImm]
    exact of_regImm rfl
  rw [decodeWord_of_row (row_mem 22 (by decide)) hm]
  show some (Instr.drw (fieldX _) (fieldY _) (fieldN _)) = _
  rw [encode, fieldX_wordRegReg, fieldY_wordRegReg, fieldN_wordRegReg,
    BitVec.toNat_ofNat, Nat.mod_eq_of_lt hn]

theorem decodeWord_encode {i : Instr} (hi : i.wellFormed = true) :
    decodeWord (encode i) = some i := by
  cases i with
  | cls | ret => decide
  | jp => exact decodeWord_wordAddr (row_mem 2 (by decide)) rfl
  | call => exact decodeWord_wordAddr (row_mem 3 (by decide)) rfl
  | seImm => exact decodeWord_wordRegImm (row_mem 4 (by decide)) rfl
  | sneImm => exact decodeWord_wordRegImm (row_mem 5 (by decide)) rfl
  | seReg => exact decodeWord_wordRegReg (row_mem 6 (by decide)) rfl
  | ldImm => exact decodeWord_wordRegImm (row_mem 7 (by decide)) rfl
  | addImm => exact decodeWord_wordRegImm (row_mem 8 (by decide)) rfl
  | ldReg => exact decodeWord_wordRegReg (row_mem 9 (by decide)) rfl
  | orReg => exact decodeWord_wordRegReg (row_mem 10 (by decide)) rfl
  | andReg => exact decodeWord_wordRegReg (row_mem 11 (by decide)) rfl
  | xorReg => exact decodeWord_wordRegReg (row_mem 12 (by decide)) rfl
  | addReg => exact decodeWord_wordRegReg (row_mem 13 (by decide)) rfl
  | sub => exact decodeWord_wordRegReg (row_mem 14 (by decide)) rfl
  | shr => exact decodeWord_wordRegReg (row_mem 15 (by decide)) rfl
  | subn => exact decodeWord_wordRegReg (row_mem 16 (by decide)) rfl
  | shl => exact decodeWord_wordRegReg (row_mem 17 (by decide)) rfl
  | sneReg => exact decodeWord_wordRegReg (row_mem 18 (by decide)) rfl
  | ldI => exact decodeWord_wordAddr (row_mem 19 (by decide)) rfl
  | jpV0 => exact decodeWord_wordAddr (row_mem 20 (by decide)) rfl
  | rnd => exact decodeWord_wordRegImm (row_mem 21 (by decide)) rfl
  | drw => exact decodeWord_encode_drw (of_decide_eq_true hi)
  | skp => exact decodeWord_wordRegImm_sub (row_mem 23 (by decide)) rfl
  | sknp => exact decodeWord_wordRegImm_sub (row_mem 24 (by decide)) rfl
  | ldVxDt => exact decodeWord_wordRegImm_sub (row_mem 25 (by decide)) rfl
  | ldVxK => exact decodeWord_wordRegImm_sub (row_mem 26 (by decide)) rfl
  | ldDtVx => exact decodeWord_wordRegImm_sub (row_mem 27 (by decide)) rfl
  | ldStVx => exact decodeWord_wordRegImm_sub (row_mem 28 (by decide)) rfl
  | addI => exact decodeWord_wordRegImm_sub (row_mem 29 (by decide)) rfl
  | ldF => exact decodeWord_wordRegImm_sub (row_mem 30 (by decide)) rfl
  | ldB => exact decodeWord_wordRegImm_sub (row_mem 31 (by decide)) rfl
  | storeRegs => exact decodeWord_wordRegImm_sub (row_mem 32 (by decide)) rfl
  | loadRegs => exact decodeWord_wordRegImm_sub (row_mem 33 (by decide)) rfl

/-! ### Encode of decode: one lemma per format, then one per part of the table -/

/-- Each word of the row is the encoding of the well-formed instruction that the row builds. -/
def OpcodeRow.RoundTrips (r : OpcodeRow) : Prop :=
  ∀ op : Word, op &&& r.mask = r.pattern →
    (r.build op).wellFormed = true ∧ encode (r.build op) = op

theorem roundTrips_fixed {i : Instr} (hi : i.wellFormed = true ∧ encode i = p) :
    OpcodeRow.RoundTrips ⟨0xFFFF, p, fun _ => i⟩ :=
  fun _ hop => ⟨hi.1, hi.2.trans (and_maskFFFF_eq_iff.1 hop).symm⟩

theorem roundTrips_addr {build : Addr12 → Instr}
    (hi : ∀ nnn, (build nnn).wellFormed = true ∧ encode (build nnn) = wordAddr c nnn)
    (hp : p.toNat = c.toNat * 4096) :
    OpcodeRow.RoundTrips ⟨0xF000, p, fun op => build (fieldNnn op)⟩ := by
  intro op (hop : op &&& 0xF000 = p)
  obtain ⟨hc, -⟩ := and_maskF000_eq_iff.1 hop
  obtain ⟨hwf, henc⟩ := hi (fieldNnn op)
  exact ⟨hwf, henc.trans (wordAddr_fieldNnn (by omega))⟩

theorem roundTrips_regImm {build : RegIdx → Byte → Instr}
    (hi : ∀ x kk, (build x kk).wellFormed = true ∧ encode (build x kk) = wordRegImm c x kk)
    (hp : p.toNat = c.toNat * 4096) :
    OpcodeRow.RoundTrips ⟨0xF000, p, fun op => build (fieldX op) (fieldKk op)⟩ := by
  intro op (hop : op &&& 0xF000 = p)
  obtain ⟨hc, -⟩ := and_maskF000_eq_iff.1 hop
  obtain ⟨hwf, henc⟩ := hi (fieldX op) (fieldKk op)
  exact ⟨hwf, henc.trans (wordRegImm_fields (by omega) (toNat_fieldKk op).symm)⟩

theorem roundTrips_sub {build : RegIdx → Instr}
    (hi : ∀ x, (build x).wellFormed = true ∧ encode (build x) = wordRegImm c x kk)
    (hp : p.toNat = c.toNat * 4096 + kk.toNat) :
    OpcodeRow.RoundTrips ⟨0xF0FF, p, fun op => build (fieldX op)⟩ := by
  intro op (hop : op &&& 0xF0FF = p)
  obtain ⟨hc, hkk⟩ := and_maskF0FF_eq_iff.1 hop
  obtain ⟨hwf, henc⟩ := hi (fieldX op)
  exact ⟨hwf, henc.trans (wordRegImm_fields (by omega) (by omega))⟩

theorem roundTrips_regReg {build : RegIdx → RegIdx → Instr}
    (hi : ∀ x y, (build x y).wellFormed = true ∧ encode (build x y) = wordRegReg c x y f)
    (hp : p.toNat = c.toNat * 4096 + f.toNat) :
    OpcodeRow.RoundTrips ⟨0xF00F, p, fun op => build (fieldX op) (fieldY op)⟩ := by
  intro op (hop : op &&& 0xF00F = p)
  obtain ⟨hc, hf⟩ := and_maskF00F_eq_iff.1 hop
  obtain ⟨hwf, henc⟩ := hi (fieldX op) (fieldY op)
  exact ⟨hwf, henc.trans (wordRegReg_fields (by omega) (by omega))⟩

theorem roundTrips_drw :
    OpcodeRow.RoundTrips ⟨0xF000, 0xD000, fun op => .drw (fieldX op) (fieldY op) (fieldN op)⟩ := by
  intro op (hop : op &&& 0xF000 = 0xD000)
  obtain ⟨hc, -⟩ := and_maskF000_eq_iff.1 hop
  have hn : fieldN op < 16 := BitVec.isLt _
  refine ⟨decide_eq_true hn, wordRegReg_fields hc ?_⟩
  rw [BitVec.toNat_ofNat, Nat.mod_eq_of_lt hn, fieldN_eq]

theorem opcodeRowsLow_roundTrip : ∀ r ∈ opcodeRowsLow, r.RoundTrips := by
  simp only [opcodeRowsLow, List.forall_mem_cons]
  exact ⟨roundTrips_fixed ⟨rfl, rfl⟩, roundTrips_fixed ⟨rfl, rfl⟩,
    roundTrips_addr (fun _ => ⟨rfl, rfl⟩) rfl, roundTrips_addr (fun _ => ⟨rfl, rfl⟩) rfl,
    roundTrips_regImm (fun _ _ => ⟨rfl, rfl⟩) rfl, roundTrips_regImm (fun _ _ => ⟨rfl, rfl⟩) rfl,
    roundTrips_regReg (fun _ _ => ⟨rfl, rfl⟩) rfl, roundTrips_regImm (fun _ _ => ⟨rfl, rfl⟩) rfl,
    roundTrips_regImm (fun _ _ => ⟨rfl, rfl⟩) rfl, List.forall_mem_nil _⟩

theorem opcodeRowsAlu_roundTrip : ∀ r ∈ opcodeRowsAlu, r.RoundTrips := by
  simp only [opcodeRowsAlu, List.forall_mem_cons]
  refine ⟨?_, ?_, ?_, ?_, ?_, ?_, ?_, ?_, ?_, List.forall_mem_nil _⟩ <;>
    exact roundTrips_regReg (fun _ _ => ⟨rfl, rfl⟩) rfl

theorem opcodeRowsHigh_roundTrip : ∀ r ∈ opcodeRowsHigh, r.RoundTrips := by
  simp only [opcodeRowsHigh, List.forall_mem_cons]
  exact ⟨roundTrips_regReg (fun _ _ => ⟨rfl, rfl⟩) rfl, roundTrips_addr (fun _ => ⟨rfl, rfl⟩) rfl,
    roundTrips_addr (fun _ => ⟨rfl, rfl⟩) rfl, roundTrips_regImm (fun _ _ => ⟨rfl, rfl⟩) rfl,
    roundTrips_drw, roundTrips_sub (fun _ => ⟨rfl, rfl⟩) rfl,
    roundTrips_sub (fun _ => ⟨rfl, rfl⟩) rfl, List.forall_mem_nil _⟩

theorem opcodeRowsF_roundTrip : ∀ r ∈ opcodeRowsF, r.RoundTrips := by
  simp only [opcodeRowsF, List.forall_mem_cons]
  refine ⟨?_, ?_, ?_, ?_, ?_, ?_, ?_, ?_, ?_, List.forall_mem_nil _⟩ <;>
    exact roundTrips_sub (fun _ => ⟨rfl, rfl⟩) rfl

theorem opcodeRows_roundTrip : ∀ r ∈ opcodeRows, r.RoundTrips := by
  simp only [opcodeRows, List.forall_mem_append]
  exact ⟨⟨⟨opcodeRowsLow_roundTrip, opcodeRowsAlu_roundTrip⟩, opcodeRowsHigh_roundTrip⟩,
    opcodeRowsF_roundTrip⟩

/-! ### The words no row of a part of the table matches, by family nibble (R85, R92) -/

theorem no_rowLow_matches_iff : (∀ r ∈ opcodeRowsLow, op &&& r.mask ≠ r.pattern) ↔
    op ≠ 0x00E0 ∧ op ≠ 0x00EE ∧ op.toNat / 4096 ∉ [1, 2, 3, 4] ∧
      (op.toNat / 4096 = 5 → op.toNat % 16 ≠ 0) ∧ op.toNat / 4096 ∉ [6, 7] := by
  simp only [opcodeRowsLow, List.forall_mem_cons, ne_eq, and_maskFFFF_eq_iff, and_maskF000_eq_iff,
    and_maskF00F_eq_iff]
  simp [and_assoc]

theorem no_rowAlu_matches_iff : (∀ r ∈ opcodeRowsAlu, op &&& r.mask ≠ r.pattern) ↔
    (op.toNat / 4096 = 8 → op.toNat % 16 ∉ [0, 1, 2, 3, 4, 5, 6, 7, 0xE]) := by
  simp only [opcodeRowsAlu, List.forall_mem_cons, ne_eq, and_maskF00F_eq_iff]
  simp [← imp_and]

theorem no_rowHigh_matches_iff : (∀ r ∈ opcodeRowsHigh, op &&& r.mask ≠ r.pattern) ↔
    (op.toNat / 4096 = 9 → op.toNat % 16 ≠ 0) ∧ op.toNat / 4096 ∉ [0xA, 0xB, 0xC, 0xD] ∧
      (op.toNat / 4096 = 0xE → op.toNat % 256 ∉ [0x9E, 0xA1]) := by
  simp only [opcodeRowsHigh, List.forall_mem_cons, ne_eq, and_maskF000_eq_iff, and_maskF00F_eq_iff,
    and_maskF0FF_eq_iff]
  simp [← imp_and, and_assoc]

theorem no_rowF_matches_iff : (∀ r ∈ opcodeRowsF, op &&& r.mask ≠ r.pattern) ↔
    (op.toNat / 4096 = 0xF →
      op.toNat % 256 ∉ [0x07, 0x0A, 0x15, 0x18, 0x1E, 0x29, 0x33, 0x55, 0x65]) := by
  simp only [opcodeRowsF, List.forall_mem_cons, ne_eq, and_maskF0FF_eq_iff]
  simp [← imp_and]

/-- The low nibbles that are no ALU function (R87). -/
theorem not_mem_aluFunctions_iff {n : Nat} (hn : n < 16) :
    n ∉ [0, 1, 2, 3, 4, 5, 6, 7, 0xE] ↔ n ∈ [0x8, 0x9, 0xA, 0xB, 0xC, 0xD, 0xF] := by
  interval_cases n <;> decide

end Sys2Proof

open Sys2Proof

/-- Settles O1: `decodeWord_encode`, and the two bytes of a word are put together again. -/
theorem decodeOfEncodeIsInstruction : Obligations.DecodeOfEncodeIsInstruction := by
  intro i rest hi
  refine ⟨decodeWord_encode hi, decode_cons_cons_eq_decoded ?_⟩
  rw [wordOfBytes_bytesOfWord, decodeWord_encode hi]

/-- Settles O2: the row that matched is one whose words round-trip. -/
theorem encodeOfDecodeIsWord : Obligations.EncodeOfDecodeIsWord := by
  intro op i h
  obtain ⟨r, hr, hm, rfl⟩ := decodeWord_eq_some_iff.1 h
  exact opcodeRows_roundTrip r hr op hm

/-- Settles O3: any two rows differ in a bit that both masks fix. -/
theorem opcodeRowsNeverOverlap : Obligations.OpcodeRowsNeverOverlap :=
  ⟨rfl, fun _ => ⟨length_filter_matchesWord_le_one opcodeRows_disjoint, decodeWord_eq_none_iff,
    fun _ hr hm => decodeWord_of_row hr hm⟩⟩

/-- Settles O4: the four parts of the table joined, then compared family nibble by family nibble. -/
theorem unknownWordsAreTheListedOnes : Obligations.UnknownWordsAreTheListedOnes := by
  intro op
  rw [decodeWord_eq_none_iff, opcodeRows, List.forall_mem_append, List.forall_mem_append,
    List.forall_mem_append, no_rowLow_matches_iff, no_rowAlu_matches_iff, no_rowHigh_matches_iff,
    no_rowF_matches_iff, not_mem_aluFunctions_iff (Nat.mod_lt _ (by decide))]
  have hE0 : op = 0x00E0 → op.toNat / 4096 = 0 := by rintro rfl; rfl
  have hEE : op = 0x00EE → op.toNat / 4096 = 0 := by rintro rfl; rfl
  have hzero : op.toNat < 4096 ↔ op.toNat / 4096 = 0 := by omega
  have hfamily : op.toNat / 4096 < 16 := by omega
  rw [hzero]
  generalize op.toNat / 4096 = c at *
  interval_cases c <;> simp_all

/-- Settles O5, by evaluation. -/
theorem writtenOutWordsDecode : Obligations.WrittenOutWordsDecode := by
  unfold Obligations.WrittenOutWordsDecode
  decide
end

section
/-! Control flow (40_control_flow.md R100 to R108): jumps, the call stack and the conditional
skips. -/

namespace Sys2Proof.Machine

variable {s : State} {nnn : Addr12}

/-- JP V0's sum is at most 0x10FE, so the 16-bit addition does not wrap (R107). -/
theorem toNat_wordOperand_add_addrOperand (b : Byte) (nnn : Addr12) :
    (wordOperand b + addrOperand nnn).toNat = b.toNat + nnn.toNat := by
  have hb := b.isLt
  have hnnn := nnn.isLt
  rw [BitVec.toNat_add, toNat_wordOperand, toNat_addrOperand]
  exact Nat.mod_eq_of_lt (by omega)

/-- CALL with 16 entries held (10_state.md R28). -/
theorem execCall_of_full_stack (h : 16 ≤ s.stack.length) :
    execCall nnn s = .fault .stackOverflow := by
  rcases execCall_cases nnn s with ⟨hroom, -⟩ | ⟨-, e⟩
  · omega
  · exact e

/-- RET with no entry held (10_state.md R29). -/
theorem execRet_of_empty_stack (h : s.stack = []) : execRet s = .fault .stackUnderflow := by
  rcases execRet_cases s with ⟨a, older, hs, -⟩ | ⟨-, e⟩
  · simp [h] at hs
  · exact e

/-- An instruction whose whole effect is `skipIf c` skips one word where `p` holds, which makes `c`
true, and none where `q` holds, which makes it false (R108). -/
theorem skips_of_exec_eq_skipIf {i : Instr} {c : Bool} {p q : Prop}
    (hexec : exec i s = .next (s.skipIf c)) (hp : p → c = true) (hq : q → c = false) :
    ∃ t, exec i s = .next t ∧ (p → t.pc = s.pc + 2) ∧ (q → t.pc = s.pc) ∧
      Frame { pc := true } s t :=
  ⟨_, hexec, fun h => by rw [hp h, State.skipIf_true, State.setPc_pc],
    fun h => by rw [hq h, State.skipIf_false], Frame.skipIf s c⟩

end Sys2Proof.Machine

namespace Sys2Proof

/-- In families 5 and 9 only the low nibble 0 is an instruction (R105, R106). -/
theorem decodeWord_wordRegReg_eq_none {c f : BitVec 4} {x y : RegIdx}
    (hc : c.toNat = 5 ∨ c.toNat = 9) (hf : f ≠ 0) : decodeWord (wordRegReg c x y f) = none := by
  have hword := toNat_wordRegReg c x y f
  have hf0 : f.toNat ≠ 0 := fun h => hf (BitVec.eq_of_toNat_eq h)
  have hlow : (wordRegReg c x y f).toNat % 16 = f.toNat := by omega
  have hfamily : (wordRegReg c x y f).toNat / 0x1000 = c.toNat := by omega
  exact (unknownWordsAreTheListedOnes _).2
    (Or.inr (Or.inl ⟨by rwa [hfamily], by rwa [hlow]⟩))

end Sys2Proof

open Sys2Proof Sys2Proof.Machine

/-- Settles O29: the newest entry of the stack CALL left is the PC it pushed. -/
theorem returnUndoesCall : Obligations.ReturnUndoesCall := by
  intro nnn s t u hcall hstack
  obtain ⟨-, rfl⟩ := execCall_eq_next.1 hcall
  exact ⟨_, execRet_eq_next.2 ⟨s.pc, s.stack, hstack, rfl⟩, rfl, rfl⟩

/-- Settles O25: zero-extending nnn keeps its value. -/
theorem jumpSetsPc : Obligations.JumpSetsPc :=
  fun nnn s => ⟨decodeWord_encode (i := .jp nnn) rfl,
    _, rfl, toNat_addrOperand nnn, Frame.setPc s _⟩

/-- Settles O26: the sum does not wrap. -/
theorem indexedJumpAddsV0 : Obligations.IndexedJumpAddsV0 :=
  fun nnn s => ⟨decodeWord_encode (i := .jpV0 nnn) rfl,
    _, rfl, toNat_wordOperand_add_addrOperand (s.reg 0) nnn, Frame.setPc s _⟩

/-- Settles O27, below and at the capacity of the stack. -/
theorem callPushesReturnAddress : Obligations.CallPushesReturnAddress :=
  fun nnn s => ⟨decodeWord_encode (i := .call nnn) rfl,
    fun hroom => ⟨_, execCall_eq_next.2 ⟨hroom, rfl⟩, rfl, toNat_addrOperand nnn,
      Frame.setStackPc s _ _⟩,
    execCall_of_full_stack⟩

/-- Settles O28, for a stack with a newest entry and for the empty one. -/
theorem returnPopsNewestAddress : Obligations.ReturnPopsNewestAddress :=
  ⟨decodeWord_encode (i := .ret) rfl,
    fun s a older hs => ⟨_, execRet_eq_next.2 ⟨a, older, hs, rfl⟩, rfl, rfl,
      Frame.setStackPc s older a⟩,
    fun _ => execRet_of_empty_stack⟩

/-- Settles O30: both are skips, on `==` and on `!=`. -/
theorem skipsOnImmediate : Obligations.SkipsOnImmediate :=
  fun x kk _ => ⟨decodeWord_encode (i := .seImm x kk) rfl, decodeWord_encode (i := .sneImm x kk) rfl,
    skips_of_exec_eq_skipIf rfl beq_iff_eq.2 beq_eq_false_iff_ne.2,
    skips_of_exec_eq_skipIf rfl bne_iff_ne.2 bne_eq_false_iff_eq.2⟩

/-- Settles O31: both are skips, on `==` and on `!=`, and a nonzero low nibble decodes to neither. -/
theorem skipsOnRegisters : Obligations.SkipsOnRegisters :=
  fun x y _ => ⟨decodeWord_encode (i := .seReg x y) rfl, decodeWord_encode (i := .sneReg x y) rfl,
    fun _ hf => ⟨decodeWord_wordRegReg_eq_none (Or.inl rfl) hf,
      decodeWord_wordRegReg_eq_none (Or.inr rfl) hf⟩,
    skips_of_exec_eq_skipIf rfl beq_iff_eq.2 beq_eq_false_iff_ne.2,
    skips_of_exec_eq_skipIf rfl bne_iff_ne.2 bne_eq_false_iff_eq.2⟩
end

section
/-! Loads and arithmetic on immediates (41_immediate.md R120, R121). -/

namespace Sys2Proof.Machine

/-- An instruction whose whole effect is `setReg x b` leaves `b` in V[x] and keeps everything
else. -/
theorem setsRegister_of_exec_eq_setReg {i : Instr} {s : State} {x : RegIdx} {b : Byte}
    (hexec : exec i s = .next (s.setReg x b)) :
    ∃ t, exec i s = .next t ∧ t.reg x = b ∧ Frame { regs := [x] } s t :=
  ⟨_, hexec, State.reg_setReg_same s x b, Frame.setReg s x b⟩

end Sys2Proof.Machine

open Sys2Proof Sys2Proof.Machine

/-- Settles O32: the whole effect is one register write. -/
theorem loadImmediateSetsOneRegister : Obligations.LoadImmediateSetsOneRegister :=
  fun x kk _ => ⟨decodeWord_encode (i := .ldImm x kk) rfl, setsRegister_of_exec_eq_setReg rfl⟩

/-- Settles O33: the one register write is of the byte sum, which wraps. -/
theorem addImmediateWraps : Obligations.AddImmediateWraps := by
  intro x kk s
  obtain ⟨t, hexec, hsum, hframe⟩ :=
    setsRegister_of_exec_eq_setReg (i := .addImm x kk) (s := s) rfl
  have hwrap : (t.reg x).toNat = ((s.reg x).toNat + kk.toNat) % 256 := by
    rw [hsum, BitVec.toNat_add]
  exact ⟨decodeWord_encode (i := .addImm x kk) rfl, t, hexec, hwrap, hframe⟩
end

section
/-! The register-register ALU (42_alu.md R130 to R138): the flags as numbers, and what
an instruction that writes a result and then a flag leaves in its two registers. -/

namespace Sys2Proof.Machine

/-! ### The flags (10_state.md R21) -/

theorem toNat_carryFlag (a b : Byte) :
    (carryFlag a b).toNat = if a.toNat + b.toNat > 255 then 1 else 0 := by
  simp [carryFlag]

theorem toNat_notBorrowFlag (a b : Byte) :
    (notBorrowFlag a b).toNat = if a.toNat > b.toNat then 1 else 0 := by
  simp [notBorrowFlag]

theorem toNat_shiftedOutLow (a : Byte) : (shiftedOutLow a).toNat = a.toNat % 2 := by
  rw [shiftedOutLow, toNat_flagByte, BitVec.getLsbD, Nat.testBit_zero]
  rcases Nat.mod_two_eq_zero_or_one a.toNat with h | h <;> simp [h]

theorem toNat_shiftedOutHigh (a : Byte) : (shiftedOutHigh a).toNat = a.toNat / 128 := by
  have ha := a.isLt
  have hbit : a.toNat / 128 = 0 ∨ a.toNat / 128 = 1 := by omega
  rw [shiftedOutHigh, toNat_flagByte, BitVec.getLsbD, Nat.testBit_eq_decide_div_mod_eq]
  rcases hbit with h | h <;> simp [h]

/-! ### The result and the flag -/

/-- A byte difference is the integer difference modulo 256. -/
theorem toNat_byte_sub (a b : Byte) :
    ((a - b).toNat : Int) = ((a.toNat : Int) - b.toNat) % 256 := by
  have ha := a.isLt
  have hb := b.isLt
  rw [BitVec.toNat_sub]
  omega

/-- An instruction whose whole effect is `setResultFlag x b f` leaves the result in V[x] unless x is
F, the flag in VF, and everything else unchanged. -/
theorem setsResultFlag_of_exec_eq_setResultFlag {i : Instr} {s : State} {x : RegIdx} {b f : Byte}
    (hexec : exec i s = .next (s.setResultFlag x b f)) :
    ∃ t, exec i s = .next t ∧ (x ≠ 15 → t.reg x = b) ∧ t.reg 15 = f ∧
      Frame { regs := [x, 15] } s t := by
  refine ⟨_, hexec, fun hx => ?_, ?_, Frame.setResultFlag s x b f⟩
  · rw [State.reg_setResultFlag, if_neg hx, if_pos rfl]
  · rw [State.reg_setResultFlag, if_pos rfl]

/-- The same for a subtraction: the wrapped difference in V[x], the strict comparison in VF (R135,
R137). -/
theorem setsNotBorrow_of_exec_eq_setResultFlag {i : Instr} {s : State} {x : RegIdx} {a b : Byte}
    (hexec : exec i s = .next (s.setResultFlag x (a - b) (notBorrowFlag a b))) :
    ∃ t, exec i s = .next t ∧
      (x ≠ 15 → ((t.reg x).toNat : Int) = ((a.toNat : Int) - b.toNat) % 256) ∧
      (t.reg 15).toNat = (if a.toNat > b.toNat then 1 else 0) ∧
      Frame { regs := [x, 15] } s t := by
  obtain ⟨t, hnext, hresult, hflag, hframe⟩ := setsResultFlag_of_exec_eq_setResultFlag hexec
  refine ⟨t, hnext, fun hx => ?_, ?_, hframe⟩
  · rw [hresult hx, toNat_byte_sub]
  · rw [hflag, toNat_notBorrowFlag]

end Sys2Proof.Machine

open Sys2Proof Sys2Proof.Machine

/-- Settles O36: the result is the byte sum, and the carry is written last. -/
theorem addSetsCarry : Obligations.AddSetsCarry := by
  intro x y s
  obtain ⟨t, hexec, hresult, hflag, hframe⟩ :=
    setsResultFlag_of_exec_eq_setResultFlag (i := .addReg x y) (s := s) rfl
  refine ⟨decodeWord_encode (i := .addReg x y) rfl, t, hexec, fun hx => ?_, ?_, hframe⟩
  · rw [hresult hx, BitVec.toNat_add]
  · rw [hflag, toNat_carryFlag]

/-- Settles O37: the minuend is V[x]. -/
theorem subSetsNotBorrow : Obligations.SubSetsNotBorrow :=
  fun x y _ => ⟨decodeWord_encode (i := .sub x y) rfl, setsNotBorrow_of_exec_eq_setResultFlag rfl⟩

/-- Settles O38: the minuend is V[y]. -/
theorem subnSetsNotBorrow : Obligations.SubnSetsNotBorrow :=
  fun x y _ => ⟨decodeWord_encode (i := .subn x y) rfl, setsNotBorrow_of_exec_eq_setResultFlag rfl⟩

/-- Settles O39: both read V[x] only, and the bit shifted out is written last. -/
theorem shiftsMoveOneBitOut : Obligations.ShiftsMoveOneBitOut := by
  intro x y s
  constructor
  · obtain ⟨t, hexec, hresult, hflag, hframe⟩ :=
      setsResultFlag_of_exec_eq_setResultFlag (i := .shr x y) (s := s) rfl
    refine ⟨t, hexec, hframe, fun hx => ?_, ?_⟩
    · rw [hresult hx, BitVec.toNat_ushiftRight, Nat.shiftRight_one]
    · rw [hflag, toNat_shiftedOutLow]
  · obtain ⟨t, hexec, hresult, hflag, hframe⟩ :=
      setsResultFlag_of_exec_eq_setResultFlag (i := .shl x y) (s := s) rfl
    refine ⟨t, hexec, hframe, fun hx => ?_, ?_⟩
    · rw [hresult hx, BitVec.toNat_shiftLeft, Nat.shiftLeft_eq]
    · rw [hflag, toNat_shiftedOutHigh]

/-- Settles O34: the whole effect is one register write. -/
theorem copyRegister : Obligations.CopyRegister :=
  fun x y _ => ⟨decodeWord_encode (i := .ldReg x y) rfl, setsRegister_of_exec_eq_setReg rfl⟩

/-- Settles O35: each is one register write, of a value given bit by bit. -/
theorem bitwiseOperations : Obligations.BitwiseOperations := by
  intro x y s
  refine ⟨?_, ?_, ?_⟩
  · obtain ⟨t, hexec, hor, hframe⟩ :=
      setsRegister_of_exec_eq_setReg (i := .orReg x y) (s := s) rfl
    exact ⟨t, hexec, hframe, fun _ => by rw [hor, BitVec.getLsbD_or]⟩
  · obtain ⟨t, hexec, hand, hframe⟩ :=
      setsRegister_of_exec_eq_setReg (i := .andReg x y) (s := s) rfl
    exact ⟨t, hexec, hframe, fun _ => by rw [hand, BitVec.getLsbD_and]⟩
  · obtain ⟨t, hexec, hxor, hframe⟩ :=
      setsRegister_of_exec_eq_setReg (i := .xorReg x y) (s := s) rfl
    exact ⟨t, hexec, hframe, fun _ => by rw [hxor, BitVec.getLsbD_xor]⟩
end

section
/-! The index register (43_index.md R150 to R152): the digit LD F uses and its glyph's address, and
what ADD I leaves in I and VF. -/

namespace Sys2Proof.Machine

variable {s : State} {x : RegIdx} {p : Params} {v : Byte} {d : Nat}

/-! ### The digit of LD F, under each GLYPH_DIGIT_OOR (spec decision D12) -/

theorem glyphDigit_of_le (hv : v.toNat ≤ 15) : glyphDigit p v = some v.toNat := if_pos hv

theorem glyphDigit_of_unmasked (hp : p.glyphDigitOor = .unmasked) :
    glyphDigit p v = some v.toNat := by
  simp [glyphDigit, hp]

theorem glyphDigit_of_lowNibble (hv : 15 < v.toNat) (hp : p.glyphDigitOor = .lowNibble) :
    glyphDigit p v = some (v.toNat % 16) := by
  simp [glyphDigit, Nat.not_le.2 hv, hp]

theorem glyphDigit_of_fault (hv : 15 < v.toNat) (hp : p.glyphDigitOor = .fault) :
    glyphDigit p v = none := by
  simp [glyphDigit, Nat.not_le.2 hv, hp]

/-! ### The glyph's address (20_memory.md R61) -/

/-- Every byte's glyph address fits in I: the largest, under Unmasked, is 0x54B. -/
theorem toNat_glyphAddress (hd : d < 256) : (glyphAddress d).toNat = 0x50 + 5 * d := by
  have hfits : 0x50 + 5 * d < 2 ^ 16 := by omega
  rw [glyphAddress, BitVec.toNat_ofNat]
  exact Nat.mod_eq_of_lt hfits

/-- LD F with a digit that is some byte's value points I at that digit's glyph. -/
theorem pointsAtGlyph_of_digit (hdigit : glyphDigit s.params (s.reg x) = some d) (hd : d < 256) :
    ∃ t, exec (.ldF x) s = .next t ∧ Frame { index := true } s t ∧ t.i.toNat = 0x50 + 5 * d :=
  ⟨_, execLdF_eq_next.2 ⟨d, hdigit, rfl⟩, Frame.setIndex s _, toNat_glyphAddress hd⟩

/-- LD F without a digit raises DigitOutOfRange. -/
theorem execLdF_of_no_digit (hdigit : glyphDigit s.params (s.reg x) = none) :
    execLdF x s = .fault (.digitOutOfRange (s.reg x)) := by
  rw [execLdF, hdigit]
  rfl

/-! ### The flag of ADD I -/

theorem toNat_indexFlag (w : Word) : (indexFlag w).toNat = if w.toNat > 255 then 1 else 0 := by
  simp [indexFlag]

end Sys2Proof.Machine

open Sys2Proof Sys2Proof.Machine

/-- Settles O41: the digit is V[x], its low nibble or none. -/
theorem glyphAddressOfDigit : Obligations.GlyphAddressOfDigit := by
  intro x s
  have hbyte := (s.reg x).isLt
  refine ⟨fun h => ?_, fun hv hp => ?_, fun hv hp => ?_⟩
  · have hdigit : glyphDigit s.params (s.reg x) = some (s.reg x).toNat :=
      h.elim glyphDigit_of_le glyphDigit_of_unmasked
    exact pointsAtGlyph_of_digit hdigit hbyte
  · exact pointsAtGlyph_of_digit (glyphDigit_of_lowNibble hv hp) (by omega)
  · exact execLdF_of_no_digit (glyphDigit_of_fault hv hp)

/-- Settles O40: zero-extending nnn keeps its value. -/
theorem loadIndexSetsAddress : Obligations.LoadIndexSetsAddress :=
  fun nnn s => ⟨decodeWord_encode (i := .ldI nnn) rfl,
    _, rfl, toNat_addrOperand nnn, Frame.setIndex s _⟩

/-- Settles O42: the flag tests the wrapped sum, and writing VF leaves I as it is. -/
theorem addIndexFlagsAbove255 : Obligations.AddIndexFlagsAbove255 := by
  intro x s
  refine ⟨_, rfl, ?_, ?_, Frame.setIndexFlag s _ _⟩
  · rw [State.setFlag_i, State.setIndex_i, BitVec.toNat_add, toNat_wordOperand]
  · rw [State.reg_setFlag, if_pos rfl, toNat_indexFlag, State.setFlag_i, State.setIndex_i]
end

section
/-! RND (44_random.md R160): the byte a draw gives, and the source after it. -/

namespace Sys2Proof.Machine

variable {s : State} {d : DrawSource} {b : Byte} {later : List Byte}

@[simp] theorem DrawSource.advance_taken : d.advance.taken = d.taken + 1 := rfl

theorem DrawSource.advance_supplied_of_cons (h : d.supplied = b :: later) :
    d.advance.supplied = later := by
  rw [DrawSource.advance, h, List.tail_cons]

theorem DrawSource.next_of_cons (free : Nat → Byte) (h : d.supplied = b :: later) :
    d.next free = b := by
  rw [DrawSource.next, h]

theorem State.rndByte_of_cons (h : s.rnd.supplied = b :: later) : s.rndByte = b :=
  DrawSource.next_of_cons Config.rndByte h

end Sys2Proof.Machine

open Sys2Proof Sys2Proof.Machine

/-- Settles O43: the byte drawn is `State.rndByte`, whether or not one was supplied. -/
theorem randomByteIsMasked : Obligations.RandomByteIsMasked := by
  intro x kk s
  refine ⟨s.drawRnd.setReg x (s.rndByte &&& kk), s.rndByte, rfl, State.reg_setReg_same _ x _,
    fun b later hsupplied => ⟨State.rndByte_of_cons hsupplied, ?_⟩, ?_,
    Frame.drawRnd_setReg s x _⟩
  · rw [State.setReg_rnd, State.drawRnd_rnd, DrawSource.advance_supplied_of_cons hsupplied]
  · rw [State.setReg_rnd, State.drawRnd_rnd, DrawSource.advance_taken]
end

section
/-! DRW (45_draw.md R165 to R169): its range, the pixels it covers the second time, and the collision
flag after VF was reset. -/

namespace Sys2Proof.Machine

variable {s t u : State} {x y : RegIdx} {n : Nat} {C : Fin 64 → Fin 32 → Prop}

/-! ### The range check (20_memory.md R58) -/

/-- The range check, by the range's last address. -/
theorem inRange_iff_last_le {a m : Nat} : inRange a m = true ↔ m = 0 ∨ a + m - 1 ≤ 0xFFF := by
  rw [inRange_iff]
  omega

/-- DRW out of range (spec decision D25). -/
theorem execDrw_of_not_inRange (h : ¬ inRange s.i.toNat n = true) :
    execDrw x y n s = .fault (.addressOutOfRange s.i.toNat n) := by
  rw [execDrw, if_neg h]
  rfl

/-! ### What a sprite covers -/

/-- The pixels a sprite covers depend on the coordinate registers, I and memory only. -/
theorem spriteCovers_congr (hx : t.reg x = s.reg x) (hy : t.reg y = s.reg y) (hi : t.i = s.i)
    (hmem : ∀ a, t.memRead a = s.memRead a) (px : Fin 64) (py : Fin 32) :
    spriteCovers t x y n px py ↔ spriteCovers s x y n px py := by
  simp only [spriteCovers, hx, hy, hi, hmem]

/-- Drawing a sprite whose coordinates are not in VF leaves the pixels it covers the same. -/
theorem spriteCovers_exec_drw (hx : x ≠ 15) (hy : y ≠ 15) (h : exec (.drw x y n) s = .next t)
    (px : Fin 64) (py : Fin 32) : spriteCovers t x y n px py ↔ spriteCovers s x y n px py := by
  have hframe : Frame { regs := [15], display := true } s t := exec_frame h
  exact spriteCovers_congr (hframe.regs x (by simpa using hx)) (hframe.regs y (by simpa using hy))
    (hframe.index rfl) (fun a => hframe.mem a (by simp)) px py

/-! ### What drawing leaves in VF and in the pixels -/

theorem State.reg_setFlag_vf (s : State) (b : Byte) : (s.setFlag b).reg 15 = b :=
  State.reg_setReg_same s VF b

/-- What a DRW that answered a next state drew. -/
theorem drew_of_exec_drw (hn : n < 16) (h : exec (.drw x y n) s = .next t) :
    Drew (spriteCovers s x y n) (s.setFlag 0) t := by
  obtain ⟨t', hnext, hdrew⟩ := execDrw_drew (y := y) hn (execDrw_eq_next.1 h).1
  cases h.symm.trans hnext
  exact hdrew

/-- After VF was reset, it reports a collision and nothing else (R166). -/
theorem Drew.vf_eq_one_iff (h : Drew C (s.setFlag 0) t) :
    t.reg 15 = 1 ↔ ∃ px py, C px py ∧ s.pixel px py = true := by
  refine ⟨fun hone => ?_, h.hit⟩
  by_contra hnone
  have hmiss : ∀ px py, C px py → s.pixel px py = false := fun px py hc =>
    Bool.eq_false_iff.2 fun hp => hnone ⟨px, py, hc, hp⟩
  have hzero : t.reg 15 = 0 := (h.miss hmiss).trans (State.reg_setFlag_vf s 0)
  exact absurd (hzero.symm.trans hone) (by decide)

/-- Two inversions of the same pixels restore them; what happens to VF in between does not matter. -/
theorem Drew.pixel_twice (h : Drew C s t) {b : Byte} (h' : Drew C (t.setFlag b) u) (px : Fin 64)
    (py : Fin 32) : u.pixel px py = s.pixel px py := by
  by_cases hc : C px py
  · calc u.pixel px py = !t.pixel px py := h'.covered px py hc
      _ = !!s.pixel px py := by rw [h.covered px py hc]
      _ = s.pixel px py := Bool.not_not _
  · exact (h'.others px py hc).trans (h.others px py hc)

/-- A pixel drawn on is 1 afterwards where it was 0 before. -/
theorem Drew.covered_set_iff (h : Drew C s t) (px : Fin 64) (py : Fin 32) :
    (C px py ∧ t.pixel px py = true) ↔ (C px py ∧ s.pixel px py = false) := by
  refine and_congr_right fun hc => ?_
  rw [h.covered px py hc, Bool.not_eq_true']

end Sys2Proof.Machine

open Sys2Proof Sys2Proof.Machine

/-- Settles O44: the sprite is drawn on what it covers, from the state with VF reset. -/
theorem drawInvertsCoveredPixels : Obligations.DrawInvertsCoveredPixels := by
  intro x y n s hwf hrange
  obtain ⟨t, hnext, hdrew⟩ :=
    execDrw_drew (x := x) (y := y) (of_decide_eq_true hwf) (inRange_iff_last_le.2 hrange)
  exact ⟨t, hnext, hdrew.covered, hdrew.others, hdrew.hit,
    fun hmiss => (hdrew.miss hmiss).trans (State.reg_setFlag_vf s 0), hdrew.dirty,
    exec_frame (i := .drw x y n) hnext⟩

/-- Settles O46: the second draw covers the same pixels, so it inverts them back, and it collides
where the first turned a pixel on. -/
theorem drawTwiceRestoresPixels : Obligations.DrawTwiceRestoresPixels := by
  intro x y n s t hwf hx hy hfirst
  have hn : n < 16 := of_decide_eq_true hwf
  have hrange : inRange s.i.toNat n = true := (execDrw_eq_next.1 hfirst).1
  have hindex : t.i = s.i := (exec_frame hfirst).index rfl
  have hdrew : Drew (spriteCovers s x y n) (s.setFlag 0) t := drew_of_exec_drw hn hfirst
  obtain ⟨u, hsecond, hdrew'⟩ := execDrw_drew (x := x) (y := y) hn (hindex ▸ hrange)
  have hagain : Drew (spriteCovers s x y n) (t.setFlag 0) u :=
    hdrew'.congr (spriteCovers_exec_drw hx hy hfirst)
  exact ⟨u, hsecond, hdrew.pixel_twice hagain, hagain.vf_eq_one_iff.trans
    (exists_congr fun px => exists_congr fun py => hdrew.covered_set_iff px py)⟩

/-- Settles O45: a last address above 0xFFF is out of range. -/
theorem drawBeyondMemoryFaults : Obligations.DrawBeyondMemoryFaults := by
  intro x y n s hn hbeyond
  refine execDrw_of_not_inRange fun hrange => ?_
  have hlast := inRange_iff_last_le.1 hrange
  omega
end

section
/-! Keys (46_keys.md R180 to R183): the key SKP and SKNP test, and what LD Vx,K does with and without
a pressed key. -/

namespace Sys2Proof.Machine

variable {s t : State} {x : RegIdx} {p : Params} {v : Byte} {k : Fin 16}

/-! ### The key tested, under each KEY_INDEX_OOR (spec decision D11) -/

theorem keyIndex_eq_some (hk : k.val = v.toNat % 16)
    (hv : v.toNat ≤ 15 ∨ p.keyIndexOor = .lowNibble) : keyIndex p v = some k := by
  rcases keyIndex_cases p v with ⟨j, hj, hjv, -⟩ | ⟨-, hgt, hp⟩
  · rw [hj, Fin.ext (hjv.trans hk.symm)]
  · simp [hp, Nat.not_le.2 hgt] at hv

theorem keyIndex_of_fault (hv : 15 < v.toNat) (hp : p.keyIndexOor = .fault) :
    keyIndex p v = none := by
  rcases keyIndex_cases p v with ⟨_, -, -, hle | hlow⟩ | ⟨hnone, -, -⟩
  · omega
  · simp [hp] at hlow
  · exact hnone

theorem execSkp_of_no_key (hkey : keyIndex s.params (s.reg x) = none) :
    execSkp x s = .fault (.keyIndexOutOfRange (s.reg x)) := by
  rw [execSkp, hkey]
  rfl

theorem execSknp_of_no_key (hkey : keyIndex s.params (s.reg x) = none) :
    execSknp x s = .fault (.keyIndexOutOfRange (s.reg x)) := by
  rw [execSknp, hkey]
  rfl

/-! ### LD Vx,K -/

theorem toNat_keyByte (k : Fin 16) : (keyByte k).toNat = k.val := by
  rw [keyByte, BitVec.toNat_ofNat]
  exact Nat.mod_eq_of_lt (by omega)

theorem execLdVxK_of_none_pressed (hnone : ∀ k, s.key k = false) :
    execLdVxK x s = .next (s.setPc (s.pc - 2)) := by
  rcases execLdVxK_cases x s with ⟨-, e⟩ | ⟨k, hk, -⟩
  · exact e
  · simp [hnone k] at hk

/-- With a key pressed LD Vx,K does not wait, so PC too is kept. -/
theorem execLdVxK_frame_of_pressed (hk : s.key k = true) (h : execLdVxK x s = .next t) :
    Frame { regs := [x], keyPick := true } s t := by
  rcases execLdVxK_pc h with ⟨hnone, -⟩ | ⟨-, hpc⟩
  · simp [hnone k] at hk
  · exact { execLdVxK_frame h with pc := fun _ => hpc }

end Sys2Proof.Machine

open Sys2Proof Sys2Proof.Machine

/-- Settles O48: both are skips on the latch of the key that V[x] selects, and fault where it
selects none. -/
theorem keySkips : Obligations.KeySkips := by
  intro x s
  refine ⟨fun k hk hv => ?_, fun hv hp => ?_⟩
  · have hkey : keyIndex s.params (s.reg x) = some k := keyIndex_eq_some hk hv
    obtain ⟨t, hskp, hpressed, hreleased, hframe⟩ :=
      skips_of_exec_eq_skipIf (i := .skp x) (execSkp_eq_next.2 ⟨k, hkey, rfl⟩) id id
    obtain ⟨u, hsknp, hreleased', hpressed', hframe'⟩ :=
      skips_of_exec_eq_skipIf (i := .sknp x) (execSknp_eq_next.2 ⟨k, hkey, rfl⟩)
        (Bool.not_eq_true' _).mpr (Bool.not_eq_false' _).mpr
    exact ⟨⟨t, hskp, hframe, hpressed, hreleased⟩, u, hsknp, hframe', hreleased', hpressed'⟩
  · have hkey : keyIndex s.params (s.reg x) = none := keyIndex_of_fault hv hp
    exact ⟨execSkp_of_no_key hkey, execSknp_of_no_key hkey⟩

/-- Settles O49: the wait, and the store under Lowest and under AnyPressed. -/
theorem keyWaitStoresPressedKey : Obligations.KeyWaitStoresPressedKey := by
  intro x s
  refine ⟨fun hnone => ⟨_, execLdVxK_of_none_pressed hnone, rfl, Frame.setPc s _⟩, ?_⟩
  rintro ⟨j, hj⟩
  have hstored (u : State) (k : Fin 16) : ((u.setReg x (keyByte k)).reg x).toNat = k.val := by
    rw [State.reg_setReg_same, toNat_keyByte]
  rcases execLdVxK_cases x s with ⟨hnone, -⟩ | ⟨k, hk, ⟨-, hmin, e⟩ | ⟨hany, e⟩⟩
  · simp [hnone j] at hj
  · exact ⟨_, k, e, hk, hstored _ k, fun _ => ⟨hmin, rfl⟩, execLdVxK_frame_of_pressed hk e⟩
  · exact ⟨_, k, e, hk, hstored _ k, fun hlow => by simp [hany] at hlow,
      execLdVxK_frame_of_pressed hk e⟩
end

section
/-! The timers (47_timers.md R190 to R194): who writes them, and what the tick at the end of a step
leaves in them. -/

namespace Sys2Proof.Machine

variable {s t : State} {i : Instr}

/-! ### The tick at the end of a step, under each TIMER_TICK_SOURCE -/

theorem State.endOfStepTick_of_perStep (h : s.params.tickSource = .perStep) :
    s.endOfStepTick = s.tick := by
  rw [State.endOfStepTick_eq, if_pos h]

theorem State.endOfStepTick_of_external (h : s.params.tickSource = .external) :
    s.endOfStepTick = s := by
  rw [State.endOfStepTick_eq, h, if_neg (by decide)]

/-! ### The timers before the tick: the value just written, else the one kept -/

theorem toNat_dt_of_exec {dt : Nat} (h : exec i s = .next t)
    (hload : ∀ x, i = .ldDtVx x → dt = (s.reg x).toNat)
    (hkeep : (∀ x, i ≠ .ldDtVx x) → dt = s.dt.toNat) : t.dt.toNat = dt := by
  cases i with
  | ldDtVx x => cases h; exact (hload x rfl).symm
  | _ => rw [(exec_frame h).dt rfl, hkeep fun _ => Instr.noConfusion]

theorem toNat_st_of_exec {st : Nat} (h : exec i s = .next t)
    (hload : ∀ x, i = .ldStVx x → st = (s.reg x).toNat)
    (hkeep : (∀ x, i ≠ .ldStVx x) → st = s.st.toNat) : t.st.toNat = st := by
  cases i with
  | ldStVx x => cases h; exact (hload x rfl).symm
  | _ => rw [(exec_frame h).st rfl, hkeep fun _ => Instr.noConfusion]

end Sys2Proof.Machine

open Sys2Proof Sys2Proof.Machine

/-- Settles O22: the instruction leaves `dt` and `st` in the timers, and the tick, if
any, follows. -/
theorem timersCountDownOncePerStep : Obligations.TimersCountDownOncePerStep := by
  intro s t op i hf hd hstep dt st hdtLoad hdtKeep hstLoad hstKeep
  obtain ⟨u, hu, rfl⟩ := exec_of_step hf hd hstep
  have hdt : u.dt.toNat = dt := toNat_dt_of_exec hu hdtLoad hdtKeep
  have hst : u.st.toNat = st := toNat_st_of_exec hu hstLoad hstKeep
  have hparams : u.params = s.params := (exec_frame hu).params
  rw [← hparams]
  refine ⟨fun hsource => ?_, fun hsource => ?_⟩
  · rw [State.endOfStepTick_of_perStep hsource, ← hdt, ← hst]
    exact ⟨toNat_tickDown u.dt, toNat_tickDown u.st⟩
  · rw [State.endOfStepTick_of_external hsource]
    exact ⟨hdt, hst⟩

/-- Settles O50: each is one write, and the tick takes 1 from the timer written. -/
theorem timerTransfers : Obligations.TimerTransfers :=
  fun x s => ⟨decodeWord_encode (i := .ldVxDt x) rfl, decodeWord_encode (i := .ldDtVx x) rfl,
    decodeWord_encode (i := .ldStVx x) rfl, setsRegister_of_exec_eq_setReg rfl,
    ⟨_, rfl, rfl, toNat_tickDown (s.reg x), Frame.setDt s _⟩,
    ⟨_, rfl, rfl, toNat_tickDown (s.reg x), Frame.setSt s _⟩⟩
end

section
/-! ST and the dirty flag are read by no instruction (10_state.md R32, R34): every meaning answers
alike under other values of the two, up to the two themselves. -/

namespace Sys2Proof.Machine

/-- The state under another sound timer and dirty flag. -/
def State.withSoundDirty (s : State) (b : Byte) (d : Bool) : State := { s with st := b, dirty := d }

theorem State.skipIf_withSoundDirty (s : State) (b : Byte) (d c : Bool) :
    (s.withSoundDirty b d).skipIf c = (s.skipIf c).withSoundDirty b d := by
  cases c <;> rfl

theorem State.storeBlock_withSoundDirty (a k : Nat) (s : State) (b : Byte) (d : Bool) :
    State.storeBlock a k (s.withSoundDirty b d) =
      (State.storeBlock a k s).withSoundDirty b d := by
  induction k with
  | zero => rfl
  | succ k ih => rw [State.storeBlock, ih]; rfl

theorem State.loadBlock_withSoundDirty (a k : Nat) (s : State) (b : Byte) (d : Bool) :
    State.loadBlock a k (s.withSoundDirty b d) = (State.loadBlock a k s).withSoundDirty b d := by
  induction k with
  | zero => rfl
  | succ k ih => rw [State.loadBlock, ih]; rfl

/-! ### Drawing may write the dirty flag, so the flag of the two results is not the one put in -/

theorem State.drawBit_withSoundDirty (bit : Bool) (px : Fin 64) (py : Fin 32) (s : State) (b : Byte)
    (d : Bool) : ∃ d', State.drawBit bit px py (s.withSoundDirty b d) =
      (State.drawBit bit px py s).withSoundDirty b d' := by
  cases bit with
  | false => exact ⟨d, rfl⟩
  | true =>
    have hpixel : (s.withSoundDirty b d).pixel px py = s.pixel px py := rfl
    refine ⟨true, ?_⟩
    simp only [State.drawBit, State.flipPixel, hpixel]
    cases s.pixel px py <;> rfl

theorem State.drawCols_withSoundDirty (x0 row : Byte) (py : Fin 32) (k : Nat) (s : State) (b : Byte)
    (d : Bool) : ∃ d', State.drawCols x0 row py k (s.withSoundDirty b d) =
      (State.drawCols x0 row py k s).withSoundDirty b d' := by
  induction k with
  | zero => exact ⟨d, rfl⟩
  | succ k ih =>
    obtain ⟨d', e⟩ := ih
    rw [State.drawCols, e]
    exact State.drawBit_withSoundDirty _ _ py _ b d'

theorem State.drawRows_withSoundDirty (x0 y0 : Byte) (n : Nat) (s : State) (b : Byte) (d : Bool) :
    ∃ d', State.drawRows x0 y0 n (s.withSoundDirty b d) =
      (State.drawRows x0 y0 n s).withSoundDirty b d' := by
  induction n with
  | zero => exact ⟨d, rfl⟩
  | succ n ih =>
    obtain ⟨d', e⟩ := ih
    rw [State.drawRows, e]
    exact State.drawCols_withSoundDirty x0 _ _ 8 _ b d'

/-! ### The instructions -/

/-- A range check before a change whose result `g` maps. -/
theorem ifInRange_mapNext {c : Bool} {u u' : State} {f : Fault} {g : State → State}
    (h : u' = g u) :
    (if c then .next u' else raise f) = mapNext g (if c then .next u else raise f) := by
  subst h
  cases c <;> rfl

/-- LD Vx,K reads the latch, the parameters, the key draw and PC. -/
theorem execLdVxK_withSoundDirty (x : RegIdx) (s : State) (b : Byte) (d : Bool) :
    execLdVxK x (s.withSoundDirty b d) = mapNext (·.withSoundDirty b d) (execLdVxK x s) := by
  have hpressed : pressedKeys (s.withSoundDirty b d) = pressedKeys s := rfl
  have hparams : (s.withSoundDirty b d).params = s.params := rfl
  simp only [execLdVxK, hpressed, State.chooseKey, hparams]
  cases pressedKeys s with
  | nil => rfl
  | cons k ks => cases s.params.keyWaitChoice <;> rfl

/-- Every instruction answers alike under another ST and dirty flag. CLS and DRW may write the
flag, and LD ST writes ST; the others carry the two along. -/
theorem exec_withSoundDirty (i : Instr) (s : State) (b : Byte) (d : Bool) :
    ∃ b' d', exec i (s.withSoundDirty b d) = mapNext (·.withSoundDirty b' d') (exec i s) := by
  have hreg (x : RegIdx) : (s.withSoundDirty b d).reg x = s.reg x := rfl
  have hparams : (s.withSoundDirty b d).params = s.params := rfl
  have hskip (c : Bool) : Host.Outcome.next ((s.withSoundDirty b d).skipIf c) =
      mapNext (·.withSoundDirty b d) (.next (s.skipIf c)) :=
    congrArg Host.Outcome.next (s.skipIf_withSoundDirty b d c)
  cases i with
  | cls => exact ⟨b, true, rfl⟩
  | ldStVx x => exact ⟨s.reg x, d, rfl⟩
  | drw x y n =>
    obtain ⟨d', e⟩ := State.drawRows_withSoundDirty (s.reg x) (s.reg y) n (s.setFlag 0) b d
    exact ⟨b, d', ifInRange_mapNext e⟩
  | seImm | sneImm | seReg | sneReg => exact ⟨b, d, hskip _⟩
  | skp x =>
    refine ⟨b, d, ?_⟩
    simp only [exec, execSkp, hreg, hparams]
    cases keyIndex s.params (s.reg x) with
    | none => rfl
    | some k => exact hskip _
  | sknp x =>
    refine ⟨b, d, ?_⟩
    simp only [exec, execSknp, hreg, hparams]
    cases keyIndex s.params (s.reg x) with
    | none => rfl
    | some k => exact hskip _
  | ret =>
    refine ⟨b, d, ?_⟩
    simp only [exec, execRet, State.withSoundDirty]
    cases stackPop s.stack <;> rfl
  | call nnn =>
    refine ⟨b, d, ?_⟩
    simp only [exec, execCall, State.withSoundDirty]
    cases stackPush s.stack s.pc <;> rfl
  | ldF x =>
    refine ⟨b, d, ?_⟩
    simp only [exec, execLdF, hreg, hparams]
    cases glyphDigit s.params (s.reg x) <;> rfl
  | ldVxK x => exact ⟨b, d, execLdVxK_withSoundDirty x s b d⟩
  | ldB x => exact ⟨b, d, ifInRange_mapNext rfl⟩
  | storeRegs x => exact ⟨b, d, ifInRange_mapNext (State.storeBlock_withSoundDirty _ _ s b d)⟩
  | loadRegs x => exact ⟨b, d, ifInRange_mapNext (State.loadBlock_withSoundDirty _ _ s b d)⟩
  | _ => exact ⟨b, d, rfl⟩

end Sys2Proof.Machine

open Sys2Proof Sys2Proof.Machine

/-- Settles O24: the two answers are alike, and putting back ST and the dirty flag makes the next
states equal. -/
theorem soundTimerAndDirtyFlagAreNeverRead : Obligations.SoundTimerAndDirtyFlagAreNeverRead := by
  intro i s b d
  obtain ⟨b', d', hexec⟩ := exec_withSoundDirty i s b d
  exact ⟨fun t ht => ⟨t.withSoundDirty b' d', hexec.trans (congrArg _ ht), rfl⟩,
    fun f hf => hexec.trans (congrArg _ hf)⟩
end

section
/-! The faults of 60_exceptions.md R222: when each meaning raises one, and which. -/

namespace Sys2Proof.Machine

variable {s : State} {f : Fault} {x y : RegIdx}

theorem keyIndex_eq_none {p : Params} {v : Byte} :
    keyIndex p v = none ↔ 15 < v.toNat ∧ p.keyIndexOor = .fault := by
  refine ⟨fun h => ?_, fun ⟨hv, hp⟩ => keyIndex_of_fault hv hp⟩
  rcases keyIndex_cases p v with ⟨k, hk, -⟩ | ⟨-, hv, hp⟩
  · cases h.symm.trans hk
  · exact ⟨hv, hp⟩

theorem glyphDigit_eq_none {p : Params} {v : Byte} :
    glyphDigit p v = none ↔ 15 < v.toNat ∧ p.glyphDigitOor = .fault := by
  refine ⟨fun h => ?_, fun ⟨hv, hp⟩ => glyphDigit_of_fault hv hp⟩
  by_cases hle : v.toNat ≤ 15
  · cases h.symm.trans (glyphDigit_of_le hle)
  have hv : 15 < v.toNat := Nat.not_le.1 hle
  cases hp : p.glyphDigitOor with
  | fault => exact ⟨hv, rfl⟩
  | lowNibble => cases h.symm.trans (glyphDigit_of_lowNibble hv hp)
  | unmasked => cases h.symm.trans (glyphDigit_of_unmasked hp)

theorem execRet_eq_fault : execRet s = .fault f ↔ s.stack = [] ∧ f = .stackUnderflow := by
  rcases execRet_cases s with ⟨a, older, hs, e⟩ | ⟨hs, e⟩
  · simp [e, hs]
  · simp [e, hs, eq_comm]

theorem execCall_eq_fault {nnn : Addr12} :
    execCall nnn s = .fault f ↔ 16 ≤ s.stack.length ∧ f = .stackOverflow := by
  rcases execCall_cases nnn s with ⟨hs, e⟩ | ⟨hs, e⟩
  · simp [e, Nat.not_le.2 hs]
  · simp [e, hs, eq_comm]

theorem execSkp_eq_fault : execSkp x s = .fault f ↔
    (15 < (s.reg x).toNat ∧ s.params.keyIndexOor = .fault) ∧ f = .keyIndexOutOfRange (s.reg x) := by
  rw [← keyIndex_eq_none, execSkp]
  cases keyIndex s.params (s.reg x) <;> simp [raise, eq_comm]

theorem execSknp_eq_fault : execSknp x s = .fault f ↔
    (15 < (s.reg x).toNat ∧ s.params.keyIndexOor = .fault) ∧ f = .keyIndexOutOfRange (s.reg x) := by
  rw [← keyIndex_eq_none, execSknp]
  cases keyIndex s.params (s.reg x) <;> simp [raise, eq_comm]

theorem execLdF_eq_fault : execLdF x s = .fault f ↔
    (15 < (s.reg x).toNat ∧ s.params.glyphDigitOor = .fault) ∧ f = .digitOutOfRange (s.reg x) := by
  rw [← glyphDigit_eq_none, execLdF]
  cases glyphDigit s.params (s.reg x) <;> simp [raise, eq_comm]

/-- LD Vx,K waits or stores a key, and never faults. -/
theorem execLdVxK_ne_fault : execLdVxK x s ≠ .fault f := by
  intro h
  rcases execLdVxK_cases x s with ⟨-, e⟩ | ⟨_, -, ⟨-, -, e⟩ | ⟨-, e⟩⟩ <;> cases h.symm.trans e

/-- The range check of a block instruction: it faults exactly when the range passes 0xFFF. -/
theorem ifInRange_eq_fault {a m : Nat} {u : State} {g : Fault} :
    (if inRange a m then .next u else raise g) = .fault f ↔
      (1 ≤ m ∧ 0xFFF < a + m - 1) ∧ f = g := by
  have hrange : inRange a m = false ↔ 1 ≤ m ∧ 0xFFF < a + m - 1 := by
    rw [← Bool.not_eq_true, inRange_iff_last_le]
    omega
  rw [← hrange]
  cases inRange a m <;> simp [raise, eq_comm]

theorem execDrw_eq_fault {n : Nat} : execDrw x y n s = .fault f ↔
    (1 ≤ n ∧ 0xFFF < s.i.toNat + n - 1) ∧ f = .addressOutOfRange s.i.toNat n :=
  ifInRange_eq_fault

theorem execLdB_eq_fault : execLdB x s = .fault f ↔
    0xFFF < s.i.toNat + 2 ∧ f = .addressOutOfRange s.i.toNat 3 :=
  ifInRange_eq_fault.trans (by simp)

theorem execStoreRegs_eq_fault : execStoreRegs x s = .fault f ↔
    0xFFF < s.i.toNat + x.val ∧ f = .addressOutOfRange s.i.toNat (x.val + 1) :=
  ifInRange_eq_fault.trans (by simp)

theorem execLoadRegs_eq_fault : execLoadRegs x s = .fault f ↔
    0xFFF < s.i.toNat + x.val ∧ f = .addressOutOfRange s.i.toNat (x.val + 1) :=
  ifInRange_eq_fault.trans (by simp)

end Sys2Proof.Machine

open Sys2Proof Sys2Proof.Machine

/-- Settles O10: the instructions that can fault one by one, each in its own disjunct. -/
theorem instructionsRaiseOnlyTheirOwnFault : Obligations.InstructionsRaiseOnlyTheirOwnFault := by
  intro i s f h
  cases i with
  | call nnn => exact Or.inl ⟨(execCall_eq_fault.1 h).2, nnn, rfl⟩
  | ret => exact Or.inr (Or.inl ⟨(execRet_eq_fault.1 h).2, rfl⟩)
  | drw x y n =>
    obtain ⟨⟨hn, hlast⟩, hf⟩ := execDrw_eq_fault.1 h
    exact Or.inr (Or.inr (Or.inl ⟨n, hf, hn, hlast, Or.inl ⟨x, y, rfl⟩⟩))
  | ldB x =>
    obtain ⟨hlast, hf⟩ := execLdB_eq_fault.1 h
    exact Or.inr (Or.inr (Or.inl ⟨3, hf, Nat.succ_pos _, hlast, Or.inr (Or.inl ⟨x, rfl, rfl⟩)⟩))
  | storeRegs x =>
    obtain ⟨hlast, hf⟩ := execStoreRegs_eq_fault.1 h
    exact Or.inr (Or.inr (Or.inl ⟨_, hf, Nat.succ_pos _, hlast,
      Or.inr (Or.inr (Or.inl ⟨x, rfl, rfl⟩))⟩))
  | loadRegs x =>
    obtain ⟨hlast, hf⟩ := execLoadRegs_eq_fault.1 h
    exact Or.inr (Or.inr (Or.inl ⟨_, hf, Nat.succ_pos _, hlast,
      Or.inr (Or.inr (Or.inr ⟨x, rfl, rfl⟩))⟩))
  | skp x =>
    obtain ⟨⟨hv, hp⟩, hf⟩ := execSkp_eq_fault.1 h
    exact Or.inr (Or.inr (Or.inr (Or.inl ⟨x, hf, hv, hp, Or.inl rfl⟩)))
  | sknp x =>
    obtain ⟨⟨hv, hp⟩, hf⟩ := execSknp_eq_fault.1 h
    exact Or.inr (Or.inr (Or.inr (Or.inl ⟨x, hf, hv, hp, Or.inr rfl⟩)))
  | ldF x =>
    obtain ⟨⟨hv, hp⟩, hf⟩ := execLdF_eq_fault.1 h
    exact Or.inr (Or.inr (Or.inr (Or.inr ⟨x, hf, hv, hp, rfl⟩)))
  | ldVxK x => exact absurd h execLdVxK_ne_fault
  | _ => cases h
end

section
/-! CLS (49_clear.md R210). -/

open Sys2Proof Sys2Proof.Machine

/-- Settles O47: the whole effect is the display's clear. -/
theorem clearBlanksAndMarksDirty : Obligations.ClearBlanksAndMarksDirty :=
  ⟨decodeWord_encode (i := .cls) rfl,
    fun s => ⟨_, rfl, s.pixel_clearDisplay, rfl, Frame.clearDisplay s⟩⟩
end

section
/-! BCD and block transfer (48_bcd_block.md R200 to R202): the bytes stored and the registers
loaded. -/

namespace Sys2Proof.Machine

variable {s t : State} {x k : RegIdx}

/-- LD B, Vx leaves the j-th of the three digits at I + j. -/
theorem toNat_memRead_of_ldB {j d : Nat} (h : exec (.ldB x) s = .next t)
    (hj : (bcdDigits (s.reg x))[j]? = some (BitVec.ofNat 8 d)) (hd : d < 256) :
    (t.memRead (s.i.toNat + j)).toNat = d := by
  obtain ⟨-, rfl⟩ := execLdB_eq_next.1 h
  have hread : ((s.mem.writeBytes s.i.toNat (bcdDigits (s.reg x))).read (s.i.toNat + j)) =
      BitVec.ofNat 8 d := Memory.read_writeBytes_get hj
  rw [State.memRead, hread, BitVec.toNat_ofNat, Nat.mod_eq_of_lt hd]

/-- LD Vx, [I] leaves in Vk the byte at I + k, for every k up to x. -/
theorem reg_of_loadRegs (h : exec (.loadRegs x) s = .next t) (hk : k ≤ x) :
    t.reg k = s.memRead (s.i.toNat + k.val) := by
  have hkx : k.val ≤ x.val := hk
  obtain ⟨-, rfl⟩ := execLoadRegs_eq_next.1 h
  rw [State.reg_loadBlock _ _ _ (by omega), if_pos (by omega)]

end Sys2Proof.Machine

open Sys2Proof Sys2Proof.Machine

/-- Settles O51: the three digits are the list LD B stores, each below 256. -/
theorem bcdStoresThreeDigits : Obligations.BcdStoresThreeDigits := by
  intro x s
  refine ⟨decodeWord_encode (i := .ldB x) rfl, fun hle => ?_,
    fun hgt => execLdB_eq_fault.2 ⟨hgt, rfl⟩⟩
  obtain ⟨t, ht⟩ : ∃ t, exec (.ldB x) s = .next t :=
    ⟨_, execLdB_eq_next.2 ⟨inRange_iff_last_le.2 (Or.inr hle), rfl⟩⟩
  have hv := (s.reg x).isLt
  refine ⟨t, ht, ?_, ?_, ?_, exec_frame ht⟩
  · exact toNat_memRead_of_ldB (j := 0) ht rfl (by omega)
  · exact toNat_memRead_of_ldB (j := 1) ht rfl (by omega)
  · exact toNat_memRead_of_ldB (j := 2) ht rfl (by omega)

/-- Settles O52, from the block store's bytes and its frame. -/
theorem blockStoreWritesV0ToVx : Obligations.BlockStoreWritesV0ToVx := by
  intro x s
  refine ⟨decodeWord_encode (i := .storeRegs x) rfl, fun hle => ?_,
    fun hgt => execStoreRegs_eq_fault.2 ⟨hgt, rfl⟩⟩
  obtain ⟨t, ht⟩ : ∃ t, exec (.storeRegs x) s = .next t :=
    ⟨_, execStoreRegs_eq_next.2 ⟨inRange_iff_last_le.2 (Or.inr hle), rfl⟩⟩
  exact ⟨t, ht, fun _ => memRead_of_storeRegs ht, exec_frame ht⟩

/-- Settles O53, from the block load's registers and its frame. -/
theorem blockLoadReadsV0ToVx : Obligations.BlockLoadReadsV0ToVx := by
  intro x s
  refine ⟨decodeWord_encode (i := .loadRegs x) rfl, fun hle => ?_,
    fun hgt => execLoadRegs_eq_fault.2 ⟨hgt, rfl⟩⟩
  obtain ⟨t, ht⟩ : ∃ t, exec (.loadRegs x) s = .next t :=
    ⟨_, execLoadRegs_eq_next.2 ⟨inRange_iff_last_le.2 (Or.inr hle), rfl⟩⟩
  exact ⟨t, ht, fun _ => reg_of_loadRegs ht, exec_frame ht⟩

/-- Settles O54: the store keeps I, so the load has the range the store had and reads the bytes it
left. -/
theorem blockLoadUndoesBlockStore : Obligations.BlockLoadUndoesBlockStore := by
  intro x s t u hstore hi hmem
  have hi' : u.i = s.i := hi.trans ((exec_frame hstore).index rfl)
  have hrange : inRange u.i.toNat (x.val + 1) = true := by
    rw [hi']
    exact (execStoreRegs_eq_next.1 hstore).1
  obtain ⟨w, hw⟩ : ∃ w, exec (.loadRegs x) u = .next w :=
    ⟨_, execLoadRegs_eq_next.2 ⟨hrange, rfl⟩⟩
  refine ⟨w, hw, fun r hr => ?_⟩
  calc w.reg r = u.memRead (u.i.toNat + r.val) := reg_of_loadRegs hw hr
    _ = t.memRead (s.i.toNat + r.val) := by rw [hi', State.memRead_congr hmem]
    _ = s.reg r := memRead_of_storeRegs hstore hr
end

section
/-! The host's operations (60_exceptions.md R240 to R248, 70_reset_and_hazards.md R262 to R264): what
each answers, and which state it leaves. -/

namespace Sys2Proof.Machine

variable {s t : State} {f : Fault} {a : Nat} {bytes : List Byte} {ok : Bool}

/-! ### The step -/

theorem stepOp_of_next (h : step s = .next t) : stepOp s = (t, .ok) := by
  rw [stepOp, h]

/-- A faulting step records the fetch address and, where there was one, the fetched word (R230). -/
theorem stepOp_of_fault (h : step s = .fault f) :
    stepOp s = (s.enterFaulted f (some s.pc) (fetch s), .error f) := by
  rw [stepOp, h]

theorem step_of_faulted (h : s.fault ≠ none) : step s = .refused .faultedState :=
  step_eq_refused.2 ⟨h, rfl⟩

theorem stepOp_of_faulted (h : s.fault ≠ none) : stepOp s = (s, .refused .faultedState) := by
  rw [stepOp, step_of_faulted h]

/-! ### The loads -/

theorem loadOp_of_faulted (h : s.fault ≠ none) :
    loadOp s a bytes ok f = (s, .refused .faultedState) := by
  unfold loadOp
  cases hs : s.fault with
  | none => exact absurd hs h
  | some r => rfl

theorem loadOp_of_sizeOk (h : s.fault = none) :
    loadOp s a bytes true f = ({ s with mem := s.mem.writeBytes a bytes }, .ok) := by
  rw [loadOp, h]
  rfl

/-- A refused load records its fault with no address and no word (R232). -/
theorem loadOp_of_wrongSize (h : s.fault = none) :
    loadOp s a bytes false f = (s.enterFaulted f none none, .error f) := by
  rw [loadOp, h]
  rfl

theorem loadProgram_of_le (h : s.fault = none) (hlen : bytes.length ≤ 3584) :
    loadProgram s bytes = ({ s with mem := s.mem.writeBytes 0x200 bytes }, .ok) := by
  rw [loadProgram, decide_eq_true hlen, loadOp_of_sizeOk h]

theorem loadProgram_of_lt (h : s.fault = none) (hlen : 3584 < bytes.length) :
    loadProgram s bytes = (s.enterFaulted (.programTooLarge bytes.length) none none,
      .error (.programTooLarge bytes.length)) := by
  rw [loadProgram, decide_eq_false (Nat.not_le.2 hlen), loadOp_of_wrongSize h]

theorem loadGlyphTable_of_eq (h : s.fault = none) (hlen : bytes.length = 80) :
    loadGlyphTable s bytes = ({ s with mem := s.mem.writeBytes 0x50 bytes }, .ok) := by
  rw [loadGlyphTable, decide_eq_true hlen, loadOp_of_sizeOk h]

theorem loadGlyphTable_of_ne (h : s.fault = none) (hlen : bytes.length ≠ 80) :
    loadGlyphTable s bytes = (s.enterFaulted (.glyphTableSizeMismatch bytes.length) none none,
      .error (.glyphTableSizeMismatch bytes.length)) := by
  rw [loadGlyphTable, decide_eq_false hlen, loadOp_of_wrongSize h]

/-- Clearing the fault field of a state that entered the faulted state gives back the one before. -/
theorem State.clear_fault_enterFaulted (h : s.fault = none) (ad op : Option Word) :
    { s.enterFaulted f ad op with fault := none } = s := by
  rw [← h]
  rfl

/-! ### The tick -/

theorem tickOp_of_perStep (h : s.params.tickSource = .perStep) :
    tickOp s = (s, .refused .tickIsPerStep) := by
  rw [tickOp, h]

theorem tickOp_of_external (h : s.params.tickSource = .external) (hs : s.fault = none) :
    tickOp s = (s.tick, .ok) := by
  rw [tickOp, h, hs]

theorem tickOp_fst_of_faulted (h : s.fault ≠ none) : (tickOp s).1 = s := by
  unfold tickOp
  cases s.params.tickSource with
  | perStep => rfl
  | external =>
    cases hs : s.fault with
    | none => exact absurd hs h
    | some r => rfl

/-! ### Any number of operations -/

/-- What every host operation keeps, a session keeps. -/
theorem session_induction {P : State → Prop} (hop : ∀ o s, P s → P (hostOp o s).1)
    (os : List HostOp) (s : State) (hs : P s) : P (session os s) := by
  induction os generalizing s with
  | nil => exact hs
  | cons o os ih => exact ih _ (hop o s hs)

/-! ### The invariant of a session -/

/-- The invariant is about memory, the stack and PC only. -/
theorem State.inv_congr (hmem : t.mem = s.mem) (hstack : t.stack = s.stack) (hpc : t.pc = s.pc)
    (hs : s.Inv) : t.Inv := by
  rw [State.Inv, hmem, hstack, hpc]
  exact hs

/-- A step keeps the invariant whether it completes, faults or is refused. -/
theorem stepOp_keeps_inv (hs : s.Inv) : (stepOp s).1.Inv := by
  cases h : step s with
  | next t => rw [stepOp_of_next h]; exact stepKeepsInvariant s t hs h
  | fault f => rw [stepOp_of_fault h]; exact State.inv_congr rfl rfl rfl hs
  | refused r => rw [stepOp_of_faulted (step_eq_refused.1 h).1]; exact hs

/-- A load keeps the invariant when the size check admits only bytes that fit in memory. -/
theorem loadOp_keeps_inv (hs : s.Inv) (hfits : ok = true → a + bytes.length ≤ 4096) :
    (loadOp s a bytes ok f).1.Inv := by
  by_cases hfault : s.fault = none
  · cases ok with
    | true =>
      obtain ⟨hmem, hrest⟩ := hs
      rw [loadOp_of_sizeOk hfault]
      exact ⟨Memory.wf_writeBytes hmem (hfits rfl), hrest⟩
    | false => rw [loadOp_of_wrongSize hfault]; exact State.inv_congr rfl rfl rfl hs
  · rw [loadOp_of_faulted hfault]; exact hs

theorem tickOp_keeps_inv (hs : s.Inv) : (tickOp s).1.Inv := by
  by_cases hfault : s.fault = none
  · cases hsource : s.params.tickSource with
    | perStep => rw [tickOp_of_perStep hsource]; exact hs
    | external => rw [tickOp_of_external hsource hfault]; exact State.inv_congr rfl rfl rfl hs
  · rw [tickOp_fst_of_faulted hfault]; exact hs

theorem hostOp_keeps_inv (o : HostOp) (s : State) (hs : s.Inv) : (hostOp o s).1.Inv := by
  cases o with
  | loadGlyphTable bytes =>
    refine loadOp_keeps_inv hs fun hok => ?_
    have hlen : bytes.length = 80 := of_decide_eq_true hok
    simp only [Config.glyphBase]
    omega
  | loadProgram bytes =>
    refine loadOp_keeps_inv hs fun hok => ?_
    have hlen : bytes.length ≤ 3584 := of_decide_eq_true hok
    simp only [Config.progBase]
    omega
  | step => exact stepOp_keeps_inv hs
  | tick => exact tickOp_keeps_inv hs
  | setKey k pressed => exact State.inv_congr rfl rfl rfl hs
  | render => exact State.inv_congr rfl rfl rfl hs
  | displayDirty | readSound => exact hs

/-! ### The faulted state -/

/-- `t` is `s` but for the keypad latch and the dirty flag (log entry 7). -/
def SameButKeysDirty (s t : State) : Prop := t = { s with keys := t.keys, dirty := t.dirty }

theorem SameButKeysDirty.fault (h : SameButKeysDirty s t) : t.fault = s.fault := by rw [h]

theorem SameButKeysDirty.trans {u : State} (h : SameButKeysDirty s t) (h' : SameButKeysDirty t u) :
    SameButKeysDirty s u := by
  unfold SameButKeysDirty at h h' ⊢
  exact h'.trans (by rw [h])

/-- In a faulted state only set_key and render change anything. -/
theorem hostOp_of_faulted (o : HostOp) (hs : s.fault ≠ none) :
    SameButKeysDirty s (hostOp o s).1 := by
  cases o with
  | loadGlyphTable bytes => rw [hostOp, loadGlyphTable, loadOp_of_faulted hs]; rfl
  | loadProgram bytes => rw [hostOp, loadProgram, loadOp_of_faulted hs]; rfl
  | step => rw [hostOp, stepOp_of_faulted hs]; rfl
  | tick => rw [hostOp, tickOp_fst_of_faulted hs]; rfl
  | setKey k pressed => rfl
  | render => rfl
  | displayDirty | readSound => rfl

theorem session_of_faulted (os : List HostOp) (hs : s.fault ≠ none) :
    SameButKeysDirty s (session os s) :=
  session_induction (P := SameButKeysDirty s)
    (fun o _ h => h.trans (hostOp_of_faulted o (h.fault ▸ hs))) os s rfl

/-! ### The render buffer (R246) -/

/-- Byte `c` of a pixel's four channels. -/
theorem getElem?_pixelChannels (p : Params) (b : Bool) (c : Fin 4) :
    (pixelChannels p b)[c.val]? = some (if b then 0xFF else p.offPixel[c]) := by
  cases b with
  | false => simp [pixelChannels]
  | true => fin_cases c <;> rfl

theorem getElem?_renderRow (s : State) (px : Fin 64) (py : Fin 32) (c : Fin 4) :
    (renderRow s py)[px.val * 4 + c.val]? =
      some (if s.pixel px py then 0xFF else s.params.offPixel[c]) := by
  rw [renderRow, getElem?_flatMap_of_length (fun _ => length_pixelChannels _ _) _ (by simp) c.isLt,
    List.getElem_finRange]
  exact getElem?_pixelChannels _ _ c

theorem length_renderBuffer (s : State) : (renderBuffer s).length = 8192 := by
  rw [renderBuffer, length_flatMap_of_length (length_renderRow s), List.length_finRange]

theorem getElem?_renderBuffer (s : State) (px : Fin 64) (py : Fin 32) (c : Fin 4) :
    (renderBuffer s)[(py.val * 64 + px.val) * 4 + c.val]? =
      some (if s.pixel px py then 0xFF else s.params.offPixel[c]) := by
  have hindex : (py.val * 64 + px.val) * 4 + c.val = py.val * 256 + (px.val * 4 + c.val) := by ring
  rw [hindex, renderBuffer, getElem?_flatMap_of_length (length_renderRow s) _ (by simp) (by omega),
    List.getElem_finRange]
  exact getElem?_renderRow s px py c

end Sys2Proof.Machine

open Sys2Proof Sys2Proof.Machine

/-- Settles O15: every host operation keeps the invariant. -/
theorem sessionKeepsInvariant : Obligations.SessionKeepsInvariant :=
  session_induction hostOp_keeps_inv

/-- Settles O12: the session keeps the fault field among the rest, so its state has no step. -/
theorem faultedStateIsTerminal : Obligations.FaultedStateIsTerminal := by
  intro os s hs
  have hsame := session_of_faulted os hs
  exact ⟨hsame, step_of_faulted (hsame.fault ▸ hs)⟩

/-- Settles O11: the word recorded is what the fetch gave. -/
theorem faultedStepRollsBackAndRecords : Obligations.FaultedStepRollsBackAndRecords :=
  fun s _ h => ⟨fetch s, stepOp_of_fault h, fetch_eq_none.2, fun hpc =>
    ⟨_, fetch_eq_some.2 ⟨hpc, rfl⟩, toNat_wordOfBytes _ _⟩⟩

/-- Settles O56: the bytes written are read back, the first two as the fetched word. -/
theorem programLoadWritesItsBytes : Obligations.ProgramLoadWritesItsBytes := by
  intro s bytes hs
  have hread (k : Nat) (b : Byte) (hb : bytes[k]? = some b) :
      ({ s with mem := s.mem.writeBytes 0x200 bytes } : State).memRead (0x200 + k) = b :=
    Memory.read_writeBytes_get hb
  refine ⟨fun hlen => ⟨_, loadProgram_of_le hs hlen, hread, Frame.writeBytes s 0x200 bytes, ?_⟩,
    fun hlen => ⟨_, loadProgram_of_lt hs hlen, State.clear_fault_enterFaulted hs _ _⟩⟩
  rintro b0 b1 rest rfl
  have hword : wordOfBytes b0 b1 = _ :=
    congrArg₂ wordOfBytes (hread 0 b0 rfl).symm (hread 1 b1 rfl).symm
  exact ⟨wordOfBytes b0 b1,
    fetch_eq_some.2 ⟨(by decide : (0x200 : Word).toNat ≤ 0xFFE), hword⟩, toNat_wordOfBytes b0 b1⟩

/-- Settles O57, for 80 bytes and for any other length. -/
theorem glyphLoadWritesItsBytes : Obligations.GlyphLoadWritesItsBytes :=
  fun s bytes hs => ⟨fun hlen => ⟨_, loadGlyphTable_of_eq hs hlen,
      fun _ _ => Memory.read_writeBytes_get, hlen ▸ Frame.writeBytes s 0x50 bytes⟩,
    fun hlen => ⟨_, loadGlyphTable_of_ne hs hlen, State.clear_fault_enterFaulted hs _ _⟩⟩

/-- Settles O58: the two size faults, and the refusal of both loads. -/
theorem loadFaultsAreRecorded : Obligations.LoadFaultsAreRecorded :=
  fun s bytes => ⟨fun hs hlen => by rw [loadProgram_of_lt hs hlen, State.enterFaulted_fault],
    fun hs hlen => by rw [loadGlyphTable_of_ne hs hlen, State.enterFaulted_fault],
    fun hs => ⟨loadOp_of_faulted hs, loadOp_of_faulted hs⟩⟩

/-- Settles O59, from the buffer's length and its bytes. -/
theorem renderShowsEveryPixel : Obligations.RenderShowsEveryPixel :=
  fun s => ⟨renderBuffer s, length_renderBuffer s, rfl, getElem?_renderBuffer s⟩

/-- Settles O60: the key written, the two reads, and the tick under each source. -/
theorem hostReadsAndKeyWrites : Obligations.HostReadsAndKeyWrites :=
  fun s k b => ⟨⟨setKey s k b, rfl, by rw [key_setKey, if_pos rfl],
      fun j hj => by rw [key_setKey, if_neg hj], rfl⟩,
    rfl, rfl,
    fun hsource hs => ⟨_, tickOp_of_external hsource hs, toNat_tickDown s.dt, toNat_tickDown s.st,
      Frame.tick s⟩,
    tickOp_of_perStep⟩
end
